-- ==== Sys2Proof/Word.lean ====
section
/-! DEFINITION. The word types of the Keccak sponge engine (00_scope.md R4, R8; section 6). All integers are
unsigned and bit 0 is the least significant bit (92_eei_decisions.md D26). -/

namespace Sys2Proof

/-- One byte: a `din` or `dout` transfer, a buffer byte, the delimiter, a rate (00_scope.md section 6, R8). -/
abbrev Byte := BitVec 8

/-- One command word on `cmd` (30_encoding.md R50). -/
abbrev Word := BitVec 32

/-- The 24-bit length field of ABSORB and FINALIZE, and the counter loaded from it (00_scope.md R8, 10_state.md R20). -/
abbrev Len := BitVec 24

/-- One lane of the state buffer (10_state.md R10). -/
abbrev Lane := BitVec 64

/-- The 25 lanes, as the `perm` port carries them (00_scope.md R6, 43_permutation_port.md R108). -/
abbrev Lanes := Vector Lane 25

end Sys2Proof
end

