-- ==== Sys2Proof/Machine/Keccak.lean ====
section
/-! DEFINITION. The permutation the engine is built for, Keccak-f[1600] (43_permutation_port.md R110 to R114). The spec
marks this body as general knowledge, not in its source, and records that it was run against an independent
implementation (93_implementation_defined.md K1); assumption log 3. -/

namespace Sys2Proof.Machine

/-- Flat lane index `k = x + 5*y`, coordinates taken mod 5 (43_permutation_port.md R110). -/
def laneIndex (x y : Nat) : Fin 25 := ⟨x % 5 + 5 * (y % 5), by omega⟩

/-- `ROTL64(v, n)`: rotation toward the most significant bit (00_scope.md section 6). -/
def rotl64 (v : Lane) (n : Nat) : Lane := v.rotateLeft n

/-- theta's column parities `C[x]` (43_permutation_port.md R111). -/
def columnParity (A : Lanes) : Vector Lane 5 :=
  Vector.ofFn fun x =>
    A[laneIndex x 0] ^^^ A[laneIndex x 1] ^^^ A[laneIndex x 2] ^^^ A[laneIndex x 3] ^^^ A[laneIndex x 4]

/-- theta's mix `D[x] = C[(x+4) mod 5] ^ ROTL64(C[(x+1) mod 5], 1)`; the sums are in `Fin 5`, that is mod 5
(43_permutation_port.md R111). -/
def columnMix (C : Vector Lane 5) : Vector Lane 5 :=
  Vector.ofFn fun x => C.get (x + 4) ^^^ rotl64 (C.get (x + 1)) 1

/-- theta (43_permutation_port.md R111). -/
def theta (A : Lanes) : Lanes :=
  let D := columnMix (columnParity A)
  Vector.ofFn fun k => A[k] ^^^ D.get (Fin.ofNat 5 k)

/-- The rotation offsets `RHO[k]` (43_permutation_port.md R112). -/
def rhoOffset : Vector Nat 25 :=
  #v[0, 1, 62, 28, 27, 36, 44, 6, 55, 20, 3, 10, 43, 25, 39, 41, 45, 15, 21, 8, 18, 2, 61, 56, 14]

/-- The destination `PI[k] = y + 5*((2*x + 3*y) mod 5)` of the lane at `k = x + 5*y` (43_permutation_port.md R112). -/
def piDest (k : Fin 25) : Fin 25 := laneIndex (k / 5) (2 * (k % 5) + 3 * (k / 5))

/-- The lane that comes to destination `j`: the inverse of `piDest` (`Laws.piDest_piSource`). -/
def piSource (j : Fin 25) : Fin 25 := laneIndex (3 * (j / 5) + (j % 5)) (j % 5)

/-- rho and pi combined, `E[PI[k]] = ROTL64(A[k], RHO[k])`, read from the destination's side
(43_permutation_port.md R112). -/
def rhoPi (A : Lanes) : Lanes := Vector.ofFn fun j => rotl64 A[piSource j] rhoOffset[piSource j]

/-- chi, all 25 results from the input lanes (43_permutation_port.md R113). -/
def chi (E : Lanes) : Lanes :=
  Vector.ofFn fun k => E[k] ^^^ (~~~E[laneIndex (k + 1) (k / 5)] &&& E[laneIndex (k + 2) (k / 5)])

/-- The table of the round constants as 43_permutation_port.md R114 prints it: the row of `ir` holds `RC[ir]`,
`RC[ir + 8]` and `RC[ir + 16]`. -/
structure RoundConstantRow where
  low : Lane
  mid : Lane
  high : Lane
  deriving DecidableEq, Repr

/-- The eight rows of the table (43_permutation_port.md R114). -/
def roundConstantTable : List RoundConstantRow :=
  [ { low := 0x1, mid := 0x8A, high := 0x8000000000008002 },
    { low := 0x8082, mid := 0x88, high := 0x8000000000000080 },
    { low := 0x800000000000808A, mid := 0x80008009, high := 0x800A },
    { low := 0x8000000080008000, mid := 0x8000000A, high := 0x800000008000000A },
    { low := 0x808B, mid := 0x8000808B, high := 0x8000000080008081 },
    { low := 0x80000001, mid := 0x800000000000008B, high := 0x8000000000008080 },
    { low := 0x8000000080008081, mid := 0x8000000000008089, high := 0x80000001 },
    { low := 0x8000000000008009, mid := 0x8000000000008003, high := 0x8000000080008008 } ]

/-- The 24 round constants `RC[0]` to `RC[23]`, in order: the table column by column (43_permutation_port.md R114). -/
def roundConstants : List Lane :=
  roundConstantTable.map (·.low) ++ roundConstantTable.map (·.mid) ++ roundConstantTable.map (·.high)

/-- iota: lane 0 takes the round constant (43_permutation_port.md R114). -/
def iota (A : Lanes) (rc : Lane) : Lanes := A.set 0 (A[0] ^^^ rc)

/-- One round (43_permutation_port.md R110). -/
def keccakRound (A : Lanes) (rc : Lane) : Lanes := iota (chi (rhoPi (theta A))) rc

/-- Keccak-f[1600]: 24 rounds in the order of their constants (43_permutation_port.md R110). -/
@[irreducible] def keccakF1600 (A : Lanes) : Lanes := roundConstants.foldl keccakRound A

end Sys2Proof.Machine
end

