-- ==== Sys2Proof/Config.lean ====
section
/-! DEFINITION. What is fixed for the machine: the permutation behind the `perm` port and the greatest length. -/

namespace Sys2Proof

/-- The engine's one open parameter `P` (00_scope.md R6, 92_eei_decisions.md D17), at the default the spec gives it,
`KeccakF1600` (43_permutation_port.md R110). The engine itself is written for any `P` (R109): `Machine.execWith` and
`Machine.stepWith` take it as an argument, and only the fixed names `exec` and `step` run with this one. DESIGN CHOICE,
assumption log 2. -/
def Config.P : Lanes → Lanes := Machine.keccakF1600

/-- The greatest length one command carries, `2^24 - 1` bytes (00_scope.md R8, 92_eei_decisions.md D6). -/
def Config.maxLen : Nat := 16777215

end Sys2Proof
end

