-- ==== Sys2Proof/Syntax.lean ====
section
/-! DEFINITION. The three commands of the engine (30_encoding.md R55), one constructor per row of
spec/opcode_table.json. A pseudo-command (R61) has no constructor: it is a line of the assembler,
Sys2Proof/Machine/Assembler.lean. -/

namespace Sys2Proof

/-- A decoded command. Its operands have exactly the widths of the fields they come from (30_encoding.md R53), so a
value that no word can carry cannot be written. -/
inductive Instr where
  /-- `INIT rate, delim`: construct a fresh engine instance (40_construct.md R70). -/
  | init (rate : Byte) (delim : Byte)
  /-- `ABSORB len`: absorb the next `len` bytes of `din` (41_absorb.md R80). -/
  | absorb (len : Len)
  /-- `FINALIZE outlen`: pad, permute, deliver `outlen` bytes on `dout` (42_finalize.md R90). -/
  | finalize (outlen : Len)
  deriving DecidableEq, Repr

end Sys2Proof
end

