-- ==== Sys2Proof/Machine/State.lean ====
section
/-! DEFINITION. The state of the machine: the engine (10_state.md section 1), and around it what its ports hold
(20_memory.md R41 to R45). Plain data throughout. -/

namespace Sys2Proof.Machine

/-- The sequencer register `phase`, 2 bits (10_state.md R16); `Phase.code` gives the encoding. -/
inductive Phase where
  /-- 0: no engine instance since reset. -/
  | idle
  /-- 1: an instance exists and accepts ABSORB and FINALIZE. -/
  | absorbing
  /-- 2: only inside a FINALIZE step. -/
  | squeezing
  /-- 3: the instance has produced its output. -/
  | consumed
  deriving DecidableEq, Repr

/-- The register `cause`, 3 bits; values 5 to 7 are never written (10_state.md R19). `Cause.code` gives the encoding. -/
inductive Cause where
  /-- 0: no fault. -/
  | none
  /-- 1: INIT with a rate outside 1 to 200 (60_exceptions.md R120). -/
  | badRate
  /-- 2: ABSORB or FINALIZE of a consumed instance (60_exceptions.md R121). -/
  | useAfterFinalize
  /-- 3: ABSORB or FINALIZE with no instance (60_exceptions.md R122). -/
  | notConstructed
  /-- 4: a word that is no command (60_exceptions.md R123). -/
  | illegalCommand
  deriving DecidableEq, Repr

/-- The contents of the one address space, the 200-byte state buffer (20_memory.md R30), as (address, byte) pairs in
one canonical form, `Memory.wf`. Bytes and lanes are two views of this one storage (10_state.md R11). -/
abbrev Memory := List Host.Cell

/-- The engine state, and nothing that 10_state.md R26 keeps out of it. -/
@[ext] structure Engine where
  /-- The state buffer `B[0..199]`, which is also the 25 lanes (10_state.md R10, R11). -/
  mem : Memory
  /-- `rate`, 8 bits (10_state.md R13). -/
  rate : Byte
  /-- `delimiter`, 8 bits (10_state.md R15). -/
  delimiter : Byte
  /-- `offset`, the cursor, 8 bits (10_state.md R14). -/
  offset : Byte
  /-- `phase`, 2 bits (10_state.md R16). -/
  phase : Phase
  /-- `fault`, the one flag, sticky (10_state.md R18). -/
  fault : Bool
  /-- `cause`, 3 bits (10_state.md R19). -/
  cause : Cause
  /-- `cnt`, the byte counter of a step, 24 bits, 0 between commands (10_state.md R20). -/
  cnt : Len
  deriving DecidableEq, Repr

/-- The machine: the engine, what stands in its channels, its reset input, and the history the model records. The
fields added here are not engine state (10_state.md R26): the host owns the inputs, and the histories belong to the
observation (00_scope.md R9). Assumption log 4. -/
@[ext]
structure State extends Engine where
  /-- `rst`, the reset input, as the engine sees it at its next step (70_reset_and_hazards.md R140); log 5. -/
  rst : Bool
  /-- `cmd`: command words sent and not yet taken, oldest first (20_memory.md R41). -/
  cmd : List Word
  /-- `din`: payload bytes sent and not yet taken, oldest first (20_memory.md R42). -/
  din : List Byte
  /-- `dout`: bytes delivered and not yet taken by the host, oldest first (20_memory.md R43). -/
  dout : List Byte
  /-- The `perm` trace: the lanes handed to `P` at each invocation, oldest first (43_permutation_port.md R105). -/
  perm : List Lanes
  /-- The commands accepted since reset, oldest first (00_scope.md R9(d)): those that ran without a fault. Log 25. -/
  accepted : List Instr
  /-- The payload bytes accepted since reset, taken from `din`, oldest first (00_scope.md R9(d)). Log 25. -/
  dinTaken : List Byte
  /-- The bytes the host has taken from `dout` since reset, oldest first. With those still on `dout` they are the sequence
  of bytes delivered, `State.delivered` (00_scope.md R9(a)). Log 25. -/
  doutTaken : List Byte
  deriving DecidableEq, Repr

/-- Why a step has no next state. Both reasons are met only in states that no run reaches (10_state.md R23), and both
are safe: the machine stops where the spec gives no effect. The spec's own faults (60_exceptions.md) are no reason to
stop: taking one is a next state, `State.raise`. -/
inductive Fault where
  /-- Raised by ABSORB and FINALIZE with `phase = ABSORBING` and a cursor outside its block: `rate` outside 1 to 200,
  or `offset >= rate`. An address such a command forms may lie outside the rate region or the buffer (20_memory.md R30,
  R38 to R40). Safe; assumption log 9. -/
  | cursorOutsideBlock
  /-- Raised by ABSORB and FINALIZE when `phase = SQUEEZING`, which is never its value between two commands
  (10_state.md R16, R17). Safe; assumption log 10. -/
  | commandWhileSqueezing
  deriving DecidableEq, Repr

/-- Why a command has no meaning in the model. -/
inductive Refusal where
  /-- The command named is not modelled. No arm of `exec` raises it: all three commands have their meaning. Safe. -/
  | notModelled (mnemonic : String)
  deriving DecidableEq, Repr

/-- The machine right after reset: every value is the spec's (10_state.md R24), but that `rst` is no longer asserted
(assumption log 5) and that the other histories start again empty as the `perm` trace does (assumption log 25). -/
def State.reset : State where
  mem := []
  rate := 0#8
  delimiter := 0#8
  offset := 0#8
  phase := .idle
  fault := false
  cause := .none
  cnt := 0#24
  rst := false
  cmd := []
  din := []
  dout := []
  perm := []
  accepted := []
  dinTaken := []
  doutTaken := []

end Sys2Proof.Machine
end

