-- ==== Sys2Proof/Machine/Ops.lean ====
section
/-! DEFINITION. The named operations over the buffer, the registers, the channels and the `perm` port, with taking a
fault and the one return from it. -/

namespace Sys2Proof.Machine

/-! ### The buffer as bytes -/

/-- What an address that memory does not list reads as: 0x00, the buffer's value after reset (10_state.md R24). -/
abbrev Memory.unlisted : Byte := 0#8

/-- `B[a]` (20_memory.md R31). -/
def Memory.read : Memory → Nat → Byte
  | [], _ => Memory.unlisted
  | c :: m, a => if c.1 = a then c.2 else Memory.read m a

/-- `B[a] <- b`, keeping the canonical form: the value an unlisted address reads as is not listed. -/
def Memory.write : Memory → Nat → Byte → Memory
  | [], a, b => if b = Memory.unlisted then [] else [(a, b)]
  | c :: m, a, b =>
    if a < c.1 then (if b = Memory.unlisted then c :: m else (a, b) :: c :: m)
    else if a = c.1 then (if b = Memory.unlisted then m else (a, b) :: m)
    else c :: Memory.write m a b

/-- The canonical form: addresses strictly rising and inside the buffer, 0 to 199 (20_memory.md R30), and no entry
equal to what an unlisted address reads as. -/
abbrev Memory.wf (m : Memory) : Prop :=
  m.Pairwise (fun c d => c.1 < d.1) ∧ ∀ c ∈ m, c.1 < 200 ∧ c.2 ≠ Memory.unlisted

/-- All 200 bytes zero, as INIT and reset leave them (40_construct.md R70, 10_state.md R24). -/
def Memory.zeroed : Memory := []

/-- The buffer that holds `f a` at every address `a` from 0 to 199. -/
@[irreducible] def Memory.ofBytes (f : Nat → Byte) : Memory :=
  (List.range 200).filterMap fun a => if f a = Memory.unlisted then none else some (a, f a)

/-- `B[a] <- B[a] ^ b`, one 8-bit read-modify-write (20_memory.md R35). -/
def Memory.xorByte (m : Memory) (a : Nat) (b : Byte) : Memory := m.write a (m.read a ^^^ b)

/-- `B[a + i] <- B[a + i] ^ bs[i]` for every `i` of `bs`, in order: the XOR of one chunk (41_absorb.md R80). -/
def Memory.xorBytes : Memory → Nat → List Byte → Memory
  | m, _, [] => m
  | m, a, b :: bs => Memory.xorBytes (m.xorByte a b) (a + 1) bs

/-- `B[0], ..., B[n - 1]`: what the squeeze output multiplexer delivers of a block (20_memory.md R40). -/
def Memory.block (m : Memory) (n : Nat) : List Byte := (List.range n).map m.read

/-! ### The buffer as lanes -/

/-- `MemRead(a, n)`: the sum over `j < n` of `B[a + j] * 256^j` (00_scope.md section 7). -/
def Memory.memRead (m : Memory) : Nat → Nat → Nat
  | _, 0 => 0
  | a, n + 1 => (m.read a).toNat + 256 * Memory.memRead m (a + 1) n

/-- `L[k] = MemRead(8*k, 8)` (20_memory.md R31). -/
def Memory.lane (m : Memory) (k : Nat) : Lane := BitVec.ofNat 64 (m.memRead (8 * k) 8)

/-- All 25 lanes, in the order of the `perm` port (43_permutation_port.md R108). -/
def Memory.lanes (m : Memory) : Lanes := Vector.ofFn fun k => m.lane k

/-- Byte `j` of a lane, least significant first: bits `8*j + 7` down to `8*j` (20_memory.md R31). -/
def laneByte (l : Lane) (j : Nat) : Byte := l.extractLsb' (8 * j) 8

/-- Byte `a` of 25 lanes: byte `a mod 8` of lane `a div 8` (20_memory.md R31). -/
def lanesByte (L : Lanes) (a : Nat) : Byte := laneByte (L[a / 8]?.getD 0#64) (a % 8)

/-- The buffer that holds the lanes `L`: `x[k] <- L[k]`, that is `MemWrite(8*k, 8, L[k])`, for all 25 at once
(43_permutation_port.md R105, R108). -/
def Memory.ofLanes (L : Lanes) : Memory := Memory.ofBytes (lanesByte L)

/-! ### Register and channel writes -/

/-- Replace the buffer. -/
def State.setMem (s : State) (m : Memory) : State := { s with mem := m }

/-- Write `rate`. -/
def State.setRate (s : State) (r : Byte) : State := { s with rate := r }

/-- Write `delimiter`. -/
def State.setDelimiter (s : State) (d : Byte) : State := { s with delimiter := d }

/-- Write `offset`. -/
def State.setOffset (s : State) (o : Byte) : State := { s with offset := o }

/-- Write `phase`. -/
def State.setPhase (s : State) (p : Phase) : State := { s with phase := p }

/-- Write `cnt`. -/
def State.setCnt (s : State) (c : Len) : State := { s with cnt := c }

/-- Take the command word at the head of `cmd` (20_memory.md R41). -/
def State.takeCmd (s : State) : State := { s with cmd := s.cmd.tail }

/-- Accept the command `i`: take its word from `cmd` and record it (20_memory.md R41, 00_scope.md R9(d)). -/
def State.accept (s : State) (i : Instr) : State := { s with cmd := s.cmd.tail, accepted := s.accepted ++ [i] }

/-- Take the oldest `n` bytes of `din`, `DinTake()` `n` times, and record them (20_memory.md R42, 00_scope.md R9(d)). -/
def State.dinTake (s : State) (n : Nat) : State :=
  { s with din := s.din.drop n, dinTaken := s.dinTaken ++ s.din.take n }

/-- Put bytes on `dout`, in order: `DoutPut` of each (20_memory.md R43). -/
def State.doutPut (s : State) (bs : List Byte) : State := { s with dout := s.dout ++ bs }

/-! ### The permutation port -/

/-- `Permute()`: hand all 25 lanes to `P`, record them in the `perm` trace, and replace all 25 by the result
(43_permutation_port.md R105). -/
def State.permute (P : Lanes → Lanes) (s : State) : State :=
  { s with mem := Memory.ofLanes (P s.mem.lanes), perm := s.perm ++ [s.mem.lanes] }

/-! ### Taking a fault, being halted, and the return -/

/-- Fault entry, `raise F` (60_exceptions.md R124): set `fault`, record `cause`, change nothing else. -/
def State.raise (s : State) (c : Cause) : State := { s with fault := true, cause := c }

/-- The return from a fault, and the effect of `rst` in every state (60_exceptions.md R126, 70_reset_and_hazards.md
R140): all state at its reset value, the channels and the `perm` trace empty. -/
def State.applyReset (_ : State) : State := State.reset

/-- What every command does first (60_exceptions.md R125, R127(1)): with `fault = 1` it is not taken and nothing
changes; otherwise `effect` says what it does, its word leaving `cmd` included. -/
def State.unlessHalted (s : State) (effect : State → Host.Outcome State Fault Refusal) :
    Host.Outcome State Fault Refusal :=
  if s.fault then .next s else effect s

end Sys2Proof.Machine
end

