-- ==== Sys2Proof/Machine/Operands.lean ====
section
/-! DEFINITION. The operand forms: the rate INIT accepts, the cursor, the effective addresses, the payload. -/

namespace Sys2Proof.Machine

/-- INIT accepts the rates 1 to 200 (40_construct.md R70, R72). -/
abbrev rateAccepted (rate : Byte) : Prop := 1 ≤ rate.toNat ∧ rate.toNat ≤ 200

/-- `1 <= rate <= 200` and `0 <= offset <= rate - 1`: what 41_absorb.md R80 and 42_finalize.md R90 know of the
registers with `phase = ABSORBING` (10_state.md R23(c)). It puts every address of a command below `rate`
(20_memory.md R38 to R40). -/
abbrev State.cursorInBlock (s : State) : Prop := rateAccepted s.rate ∧ s.offset.toNat < s.rate.toNat

/-- The length of the next chunk an ABSORB takes, `min(cnt, rate - offset)` (41_absorb.md R80). Its bytes go to the
addresses `offset, ..., offset + n - 1` (20_memory.md R38). -/
def State.absorbChunk (s : State) : Nat := min s.cnt.toNat (s.rate.toNat - s.offset.toNat)

/-- The length of the next output block, `min(rate, cnt)` (42_finalize.md R94); its addresses are `0, ..., n - 1`
(20_memory.md R40). -/
def State.squeezeChunk (s : State) : Nat := min s.rate.toNat s.cnt.toNat

/-- Where padding puts the delimiter (20_memory.md R39). -/
def State.delimiterAddr (s : State) : Nat := s.offset.toNat

/-- Where padding puts 0x80 (20_memory.md R39). -/
def State.lastPadAddr (s : State) : Nat := s.rate.toNat - 1

/-- The payload of an ABSORB of length `len` is on `din` (20_memory.md R42, 30_encoding.md R54). -/
abbrev State.payloadReady (s : State) (len : Len) : Prop := len.toNat ≤ s.din.length

end Sys2Proof.Machine
end

