-- ==== Sys2Proof/Machine/Absorb.lean ====
section
/-! DEFINITION. The absorb family: ABSORB (41_absorb.md), and the phase check it shares with FINALIZE. Both are written
for any permutation `P` (43_permutation_port.md R109). -/

namespace Sys2Proof.Machine

/-- The phase check of ABSORB and FINALIZE (41_absorb.md R81, 42_finalize.md R99): NotConstructed in IDLE,
UseAfterFinalize in CONSUMED, else the command's own effect. The two stops are of states no run reaches. -/
def State.whenAbsorbing (s : State) (effect : State → Host.Outcome State Fault Refusal) :
    Host.Outcome State Fault Refusal :=
  match s.phase with
  | .idle => .next (s.takeCmd.raise .notConstructed)
  | .consumed => .next (s.takeCmd.raise .useAfterFinalize)
  | .squeezing => .fault .commandWhileSqueezing
  | .absorbing => if s.cursorInBlock then effect s else .fault .cursorOutsideBlock

/-- One pass of ABSORB's loop up to its test for a full block (41_absorb.md R80): XOR a chunk into the buffer at the
cursor, move the cursor, count the bytes off. -/
def State.absorbOne (s : State) : State :=
  let n := s.absorbChunk
  (((s.setMem (s.mem.xorBytes s.offset.toNat (s.din.take n))).dinTake n).setOffset
    (s.offset + BitVec.ofNat 8 n)).setCnt (s.cnt - BitVec.ofNat 24 n)

/-- `if offset = rate: Permute(); offset <- 0`: the eager permutation of a full block (41_absorb.md R80, R86). -/
def State.permuteIfFull (P : Lanes → Lanes) (s : State) : State :=
  if s.offset = s.rate then (s.permute P).setOffset 0#8 else s

/-- ABSORB's loop `while cnt > 0` (41_absorb.md R80). `fuel` bounds the passes: each takes at least one byte, so the
length of the command is enough (`Laws.absorbLoop_eq_serial`). -/
def absorbLoop (P : Lanes → Lanes) : Nat → State → State
  | 0, s => s
  | fuel + 1, s => if s.cnt = 0#24 then s else absorbLoop P fuel (s.absorbOne.permuteIfFull P)

/-- ABSORB with the permutation `P` (41_absorb.md R80, R81): the phase check comes first; then the step waits, nothing
changed and its word still on `cmd`, until the payload is on `din` (20_memory.md R42). -/
def absorbWith (P : Lanes → Lanes) (len : Len) (s : State) : Host.Outcome State Fault Refusal :=
  s.unlessHalted fun s =>
    s.whenAbsorbing fun s =>
      if s.payloadReady len then .next (absorbLoop P len.toNat ((s.accept (.absorb len)).setCnt len))
      else .next s

/-- ABSORB (41_absorb.md R80), with the machine's permutation. -/
def execAbsorb (len : Len) (s : State) : Host.Outcome State Fault Refusal := absorbWith Config.P len s

end Sys2Proof.Machine
end

