-- ==== Sys2Proof/Machine/Construct.lean ====
section
/-! DEFINITION. The construction family: INIT (40_construct.md). -/

namespace Sys2Proof.Machine

/-- What an accepted INIT writes (40_construct.md R70): all 200 bytes zero, the operands, `offset = 0`,
`phase = ABSORBING`. -/
def State.construct (s : State) (rate delim : Byte) : State :=
  ((((s.setMem Memory.zeroed).setRate rate).setDelimiter delim).setOffset 0#8).setPhase .absorbing

/-- INIT (40_construct.md R70 to R72): no phase is required; a rate outside 1 to 200 raises BadRate. -/
def execInit (rate delim : Byte) (s : State) : Host.Outcome State Fault Refusal :=
  s.unlessHalted fun s =>
    if rateAccepted rate then .next ((s.accept (.init rate delim)).construct rate delim)
    else .next (s.takeCmd.raise .badRate)

end Sys2Proof.Machine
end

