-- ==== Sys2Proof/Machine/Finalize.lean ====
section
/-! DEFINITION. The finalize family: FINALIZE (42_finalize.md): pad, permute, squeeze, consume. Written for any
permutation `P` (43_permutation_port.md R109). -/

namespace Sys2Proof.Machine

/-- Padding, two 8-bit read-modify-writes in this order (42_finalize.md R91). -/
def State.pad (s : State) : State :=
  s.setMem ((s.mem.xorByte s.delimiterAddr s.delimiter).xorByte s.lastPadAddr 0x80#8)

/-- Deliver one output block and count it off (42_finalize.md R94); `offset` ends at its length (R95). -/
def State.squeezeOne (s : State) : State :=
  let n := s.squeezeChunk
  ((s.doutPut (s.mem.block n)).setOffset (BitVec.ofNat 8 n)).setCnt (s.cnt - BitVec.ofNat 24 n)

/-- The squeeze loop (42_finalize.md R90 step 3): a block, and while output remains a permutation and the next block.
`fuel` bounds the passes: each but the last delivers at least one byte, so one more than the output length is enough
(`Laws.squeezeLoop_eq_serial`). -/
def squeezeLoop (P : Lanes → Lanes) : Nat → State → State
  | 0, s => s
  | fuel + 1, s =>
    let t := s.squeezeOne
    if t.cnt = 0#24 then t else squeezeLoop P fuel ((t.permute P).setOffset 0#8)

/-- Steps 1 and 2 of FINALIZE: pad, enter SQUEEZING, permute once, put the read cursor at 0 (42_finalize.md R90, R91,
R93). -/
def State.closeBlock (P : Lanes → Lanes) (s : State) : State := ((s.pad.setPhase .squeezing).permute P).setOffset 0#8

/-- FINALIZE with the permutation `P` (42_finalize.md R90, R95, R99). -/
def finalizeWith (P : Lanes → Lanes) (outlen : Len) (s : State) : Host.Outcome State Fault Refusal :=
  s.unlessHalted fun s =>
    s.whenAbsorbing fun s =>
      .next ((squeezeLoop P (outlen.toNat + 1)
        (((s.accept (.finalize outlen)).closeBlock P).setCnt outlen)).setPhase .consumed)

/-- FINALIZE (42_finalize.md R90), with the machine's permutation. -/
def execFinalize (outlen : Len) (s : State) : Host.Outcome State Fault Refusal := finalizeWith Config.P outlen s

end Sys2Proof.Machine
end

