-- ==== Sys2Proof/Machine/Dispatch.lean ====
section
/-! DEFINITION. What each command does, one arm per constructor of `Instr`. -/

namespace Sys2Proof.Machine

/-- The effect of a command whose word stands at the head of `cmd`; the word is taken with it. -/
def exec (i : Instr) (s : State) : Host.Outcome State Fault Refusal :=
  match i with
  | .init rate delim => Sys2Proof.Machine.execInit rate delim s
  | .absorb len => Sys2Proof.Machine.execAbsorb len s
  | .finalize outlen => Sys2Proof.Machine.execFinalize outlen s

end Sys2Proof.Machine
end

