-- ==== Sys2Proof/WellFormed.lean ====
section
/-! DEFINITION. What counts as well formed: a command word (30_encoding.md R55, R56) and a command (R53, R57). -/

namespace Sys2Proof

/-- One row of the opcode map (30_encoding.md R55): a word belongs to the row when `w & mask = pattern`. -/
structure OpcodeRow where
  mnemonic : String
  pattern : Word
  mask : Word
  deriving DecidableEq, Repr

/-- The row a word is held against. -/
def OpcodeRow.hit (r : OpcodeRow) (w : Word) : Bool := w &&& r.mask == r.pattern

/-- The complete opcode map of 30_encoding.md R55, in its order. -/
def opcodeMap : List OpcodeRow :=
  [ ⟨"INIT", 0x01000000#32, 0xFFFF0000#32⟩,
    ⟨"ABSORB", 0x02000000#32, 0xFF000000#32⟩,
    ⟨"FINALIZE", 0x03000000#32, 0xFF000000#32⟩ ]

/-- A command word is well formed when it matches a row of the map: a known opcode, and for INIT a zero field that is
0x00 (30_encoding.md R55, R56). A word with an operand the command itself rejects (INIT with rate 0 or 201 to 255) is
well formed (R57). -/
def wordWellFormed (w : Word) : Bool := opcodeMap.any fun r => r.hit w

/-- A command is well formed when each operand is a value its field can hold (30_encoding.md R53): 8 bits for `rate`
and `delim`, 24 for a length. Whether INIT accepts the rate is not asked here (R57). The operand types have these
widths already, so this holds of every command (`Laws.instr_wellFormed`); the terms that can be ill formed are command
words (`wordWellFormed`) and assembler lines (`Machine.AsmLine.wellFormed`). -/
def Instr.wellFormed : Instr → Bool
  | .init rate delim => rate.toNat < 256 && delim.toNat < 256
  | .absorb len => len.toNat < 16777216
  | .finalize outlen => outlen.toNat < 16777216

end Sys2Proof
end

