-- ==== Sys2Proof/Decode.lean ====
section
/-! DEFINITION. The decoder, total on all `2^32` words (30_encoding.md R56, R59), and after it the encoder. -/

namespace Sys2Proof

/-- Why a word is no command (30_encoding.md R56). Both raise IllegalCommand. -/
inductive Illegal where
  /-- The opcode is 0x00 or 0x04 to 0xFF. -/
  | reservedOpcode
  /-- The opcode is INIT's, and bits 23:16 are not 0x00. -/
  | nonzeroField
  deriving DecidableEq, Repr

/-- `opcode = w[31:24]` (30_encoding.md R51, R52). -/
def opcodeField (w : Word) : Byte := w.extractLsb' 24 8

/-- The `zero` field of format I, `w[23:16]` (30_encoding.md R51). -/
def zeroField (w : Word) : Byte := w.extractLsb' 16 8

/-- The `rate` field of format I, `w[15:8]` (30_encoding.md R51). -/
def rateField (w : Word) : Byte := w.extractLsb' 8 8

/-- The `delim` field of format I, `w[7:0]` (30_encoding.md R51). -/
def delimField (w : Word) : Byte := w.extractLsb' 0 8

/-- The `len` field of format L, `w[23:0]` (30_encoding.md R52). -/
def lenField (w : Word) : Len := w.extractLsb' 0 24

/-- The decoding procedure (30_encoding.md R51, R52, R55, R59). -/
def decode (w : Word) : Except Illegal Instr :=
  if opcodeField w = 0x01#8 then
    if zeroField w = 0x00#8 then .ok (.init (rateField w) (delimField w)) else .error .nonzeroField
  else if opcodeField w = 0x02#8 then .ok (.absorb (lenField w))
  else if opcodeField w = 0x03#8 then .ok (.finalize (lenField w))
  else .error .reservedOpcode

/-- The command word of a command: formats I and L, most significant field first (30_encoding.md R51, R52). -/
def encode : Instr → Word
  | .init rate delim => 0x01#8 ++ 0x00#8 ++ rate ++ delim
  | .absorb len => 0x02#8 ++ len
  | .finalize outlen => 0x03#8 ++ outlen

/-- The command word whose bits are `w`, of which the opcode table gives `nbits`; bits above them are zero. A command
is one 32-bit word (30_encoding.md R50), so bit `n` of `w` is bit `n` of the word. -/
def tableWord (nbits w : Nat) : Word := BitVec.ofNat 32 (w % 2 ^ nbits)

/-- What `decode` reads from a word numbered as spec/opcode_table.json numbers it. -/
def decodeTableWord (nbits w : Nat) : Option Instr := (decode (tableWord nbits w)).toOption

end Sys2Proof
end

