-- ==== Sys2Proof/Machine/Fetch.lean ====
section
/-! DEFINITION. Taking a command word from `cmd` and running it, for any meaning of the commands; and the engine with
the permutation as an argument (00_scope.md R6, 43_permutation_port.md R109). -/

namespace Sys2Proof.Machine

/-- The effect of each command with the permutation `P`. -/
def execWith (P : Lanes → Lanes) : Instr → State → Host.Outcome State Fault Refusal
  | .init rate delim => execInit rate delim
  | .absorb len => absorbWith P len
  | .finalize outlen => finalizeWith P outlen

/-- The effects of several commands, one after another (20_memory.md R46), stopping at the first stop. -/
def execAll (P : Lanes → Lanes) : List Instr → State → Host.Outcome State Fault Refusal
  | [], s => .next s
  | i :: is, s =>
    match execWith P i s with
    | .next t => execAll P is t
    | .fault r => .fault r
    | .refused r => .refused r

/-- One step (20_memory.md R41, R46), the checks in the order of 60_exceptions.md R127: an asserted `rst` resets
(70_reset_and_hazards.md R140); with `fault = 1` nothing is taken (60_exceptions.md R125); with `cmd` empty the engine
waits for a command (70_reset_and_hazards.md R141); an illegal word is taken and raises IllegalCommand
(60_exceptions.md R123); a command runs by `run`, which takes its word. -/
def stepBy (run : Instr → State → Host.Outcome State Fault Refusal) (s : State) :
    Host.Outcome State Fault Refusal :=
  if s.rst then .next s.applyReset
  else if s.fault then .next s
  else
    match s.cmd with
    | [] => .next s
    | w :: _ =>
      match decode w with
      | .error _ => .next (s.takeCmd.raise .illegalCommand)
      | .ok i => run i s

/-- One step of the engine with the permutation `P`. -/
def stepWith (P : Lanes → Lanes) (s : State) : Host.Outcome State Fault Refusal := stepBy (execWith P) s

/-- Put a word where the next step takes its command: at the head of `cmd`. -/
def State.pushCmd (s : State) (w : Word) : State := { s with cmd := w :: s.cmd }

end Sys2Proof.Machine
end

