-- ==== Sys2Proof/Machine/Step.lean ====
section
/-! DEFINITION. One step of the machine, and placing the command the next step takes. -/

namespace Sys2Proof.Machine

/-- One step: `exec` of the command at the head of `cmd`, with what `stepBy` puts around it. -/
def step (s : State) : Host.Outcome State Fault Refusal := stepBy exec s

/-- The command word of an opcode-table row placed where `step` takes its next command, the head of `cmd`; nothing else
changes. From `State.reset` the very next step runs it. Assumption log 12. -/
def State.withFetchWord (s : State) (nbits w : Nat) : State := s.pushCmd (tableWord nbits w)

end Sys2Proof.Machine
end

