-- ==== Sys2Proof/Machine/Flags.lean ====
section
/-! DEFINITION. The codes of `phase` and `cause`, and the status word. `fault` is the only flag (10_state.md R18), and
no command sets a flag by succeeding, so there is no other flag computation. -/

namespace Sys2Proof.Machine

/-- The 2-bit encoding of `phase` (10_state.md R16). -/
def Phase.code : Phase → BitVec 2
  | .idle => 0
  | .absorbing => 1
  | .squeezing => 2
  | .consumed => 3

/-- The 3-bit encoding of `cause` (10_state.md R19). -/
def Cause.code : Cause → BitVec 3
  | .none => 0
  | .badRate => 1
  | .useAfterFinalize => 2
  | .notConstructed => 3
  | .illegalCommand => 4

/-- The `status` port (10_state.md R22), from bits 31:30 down: zero, CAUSE, FAULT, PHASE, OFFSET, RATE, DELIM. -/
def Engine.status (e : Engine) : Word :=
  0#2 ++ e.cause.code ++ BitVec.ofBool e.fault ++ e.phase.code ++ e.offset ++ e.rate ++ e.delimiter

end Sys2Proof.Machine
end

