-- ==== Sys2Proof/Machine/Ports.lean ====
section
/-! DEFINITION. What the host does at the ports between two commands (20_memory.md R41 to R45, 70_reset_and_hazards.md
R143), and what it observes (00_scope.md R9). The engine takes none of these steps: `step` is the engine's alone. -/

namespace Sys2Proof.Machine

/-- The host sends a command word on `cmd` (20_memory.md R41). -/
def State.sendCmd (s : State) (w : Word) : State := { s with cmd := s.cmd ++ [w] }

/-- The host puts bytes on `din` (20_memory.md R42). -/
def State.sendDin (s : State) (bs : List Byte) : State := { s with din := s.din ++ bs }

/-- The host takes the oldest `n` bytes from `dout`, and they are recorded (20_memory.md R43, 00_scope.md R9(a)). -/
def State.takeDout (s : State) (n : Nat) : List Byte × State :=
  (s.dout.take n, { s with dout := s.dout.drop n, doutTaken := s.doutTaken ++ s.dout.take n })

/-- The sequence of bytes delivered on `dout` since reset, whether the host has taken them or not (00_scope.md R9(a)). -/
def State.delivered (s : State) : List Byte := s.doutTaken ++ s.dout

/-- The host asserts `rst` (70_reset_and_hazards.md R140). -/
def State.assertRst (s : State) : State := { s with rst := true }

/-- What the outside can observe, and all a claim may mention (00_scope.md R9): (a) the sequence of bytes delivered on
`dout`, (b) the sequence of permutation invocations, (c) the status word, (d) the commands and the `din` bytes that were
accepted. -/
structure Observation where
  delivered : List Byte
  perm : List Lanes
  status : Word
  commands : List Instr
  payload : List Byte
  deriving DecidableEq, Repr

/-- The observation of a state (00_scope.md R9). -/
def State.observe (s : State) : Observation := ⟨s.delivered, s.perm, s.status, s.accepted, s.dinTaken⟩

end Sys2Proof.Machine
end

