-- ==== Sys2Proof/Machine/Assembler.lean ====
section
/-! DEFINITION. The assembler: its lines, the pseudo-commands, and the words and payloads they stand for
(30_encoding.md R60, R61; 40_construct.md R74). None of it is hardware. -/

namespace Sys2Proof.Machine

/-- How `<data>` is written (30_encoding.md R60). -/
inductive AsmData where
  /-- `hex:` and its digits. -/
  | hex (digits : List Char)
  /-- A double-quoted string, each character one byte. -/
  | ascii (text : List Char)
  /-- `<count> * <byte>`. -/
  | repeated (count : Nat) (byte : Byte)
  deriving DecidableEq, Repr

/-- The value of a hexadecimal digit, `none` for any other character. -/
def hexDigit (d : Char) : Option Nat :=
  if 48 ≤ d.toNat ∧ d.toNat ≤ 57 then some (d.toNat - 48)
  else if 65 ≤ d.toNat ∧ d.toNat ≤ 70 then some (d.toNat - 55)
  else if 97 ≤ d.toNat ∧ d.toNat ≤ 102 then some (d.toNat - 87)
  else none

/-- Two digits are one byte, the more significant digit first; an odd digit or another character is an error. -/
def hexBytes : List Char → Option (List Byte)
  | [] => some []
  | [_] => none
  | d :: e :: ds =>
    match hexDigit d, hexDigit e, hexBytes ds with
    | some x, some y, some bs => some (BitVec.ofNat 8 (16 * x + y) :: bs)
    | _, _, _ => none

/-- The bytes `<data>` stands for; `none` is an assembly-time error (30_encoding.md R60). -/
def AsmData.bytes : AsmData → Option (List Byte)
  | .hex digits => hexBytes digits
  | .ascii text => if text.all (fun d => d.toNat < 128) then some (text.map fun d => BitVec.ofNat 8 d.toNat) else none
  | .repeated count byte => some (List.replicate count byte)

/-- One line of assembler text, numbers read and data turned into bytes by `AsmData.bytes` (30_encoding.md R60, R61). -/
inductive AsmLine where
  /-- `INIT <rate>, <delim>`. -/
  | init (rate delim : Nat)
  /-- `ABSORB <data>`. -/
  | absorb (data : List Byte)
  /-- `FINALIZE <outlen>`. -/
  | finalize (outlen : Nat)
  /-- `.word <value>`. -/
  | word (value : Nat)
  /-- `INIT224`, `INIT256`, `INIT384`, `INIT512`: the named variant of a security level. -/
  | initLevel (securityBits : Nat)
  /-- `UPDATE <data>`. -/
  | update (data : List Byte)
  deriving DecidableEq, Repr

/-- The four security levels (40_construct.md R74). -/
def securityLevels : List Nat := [224, 256, 384, 512]

/-- `rate = 200 - 2*(securityBits/8)` (40_construct.md R74, 30_encoding.md R61). -/
def levelRate (securityBits : Nat) : Nat := 200 - 2 * (securityBits / 8)

/-- The delimiter of the named variants (40_construct.md R74). -/
def levelDelim : Nat := 0x01

/-- What the assembler accepts: `rate` and `delim` 0 to 255, at most `2^24 - 1` bytes of ABSORB data or output, a word
of 32 bits, one of the four security levels; `UPDATE` takes any data (30_encoding.md R60, R61). -/
def AsmLine.wellFormed : AsmLine → Bool
  | .init rate delim => rate ≤ 255 && delim ≤ 255
  | .absorb data => data.length ≤ Config.maxLen
  | .finalize outlen => outlen ≤ Config.maxLen
  | .word value => value < 2 ^ 32
  | .initLevel securityBits => securityLevels.contains securityBits
  | .update _ => true

/-- One command as it is sent: its word on `cmd` and its payload on `din` (30_encoding.md R50). -/
structure Sent where
  word : Word
  payload : List Byte
  deriving DecidableEq, Repr

/-- `INIT <rate>, <delim>` is the word `0x01000000 + 256*rate + delim` (30_encoding.md R60). -/
def sentInit (rate delim : Nat) : Sent := ⟨BitVec.ofNat 32 (0x01000000 + 256 * rate + delim), []⟩

/-- `ABSORB <data>` is the word `0x02000000 + |data|` and the bytes of `<data>` (30_encoding.md R60). -/
def sentAbsorb (data : List Byte) : Sent := ⟨BitVec.ofNat 32 (0x02000000 + data.length), data⟩

/-- `UPDATE <data>`: pieces of at most `2^24 - 1` bytes, one ABSORB each (30_encoding.md R61). `fuel` bounds the pieces;
each but the last is not empty, so the length of the data is enough. -/
def sentUpdate : Nat → List Byte → List Sent
  | 0, data => [sentAbsorb data]
  | fuel + 1, data =>
    if data.length ≤ Config.maxLen then [sentAbsorb data]
    else sentAbsorb (data.take Config.maxLen) :: sentUpdate fuel (data.drop Config.maxLen)

/-- What a line stands for (30_encoding.md R60, R61). -/
def AsmLine.assemble : AsmLine → List Sent
  | .init rate delim => [sentInit rate delim]
  | .absorb data => [sentAbsorb data]
  | .finalize outlen => [⟨BitVec.ofNat 32 (0x03000000 + outlen), []⟩]
  | .word value => [⟨BitVec.ofNat 32 value, []⟩]
  | .initLevel securityBits => [sentInit (levelRate securityBits) levelDelim]
  | .update data => sentUpdate data.length data

/-- The host sends an assembled line: its words on `cmd` and its payloads on `din`, in order (20_memory.md R41, R42). -/
def State.sendLine (s : State) (l : AsmLine) : State :=
  l.assemble.foldl (fun s c => (s.sendCmd c.word).sendDin c.payload) s

end Sys2Proof.Machine
end

