-- ==== Sys2Proof/Machine/Serial.lean ====
section
/-! DEFINITION. The byte-serial forms the spec gives beside its block forms (41_absorb.md R85, 42_finalize.md R103).
`exec` runs the block forms; that the two agree is a statement. -/

namespace Sys2Proof.Machine

/-- `ABSORB_BYTE(b)` (41_absorb.md R85). -/
def State.absorbByte (P : Lanes → Lanes) (s : State) (b : Byte) : State :=
  ((s.setMem (s.mem.xorByte s.offset.toNat b)).setOffset (s.offset + 1#8)).permuteIfFull P

/-- `for i in 0..len-1: ABSORB_BYTE(data[i])` (41_absorb.md R85). -/
def absorbSerial (P : Lanes → Lanes) (data : List Byte) (s : State) : State :=
  data.foldl (State.absorbByte P) s

/-- Deliver one byte of the squeeze, permuting first if the block is exhausted (42_finalize.md R103). -/
def State.squeezeByte (P : Lanes → Lanes) (s : State) : State :=
  let t := if s.offset = s.rate then (s.permute P).setOffset 0#8 else s
  ((t.doutPut [t.mem.read t.offset.toNat]).setOffset (t.offset + 1#8)).setCnt (t.cnt - 1#24)

/-- `while cnt > 0` of the byte-serial squeeze, for `cnt = n` (42_finalize.md R103). -/
def squeezeSerial (P : Lanes → Lanes) : Nat → State → State
  | 0, s => s
  | n + 1, s => squeezeSerial P n (s.squeezeByte P)

end Sys2Proof.Machine
end

