-- ==== Sys2Proof/Machine/Several.lean ====
section
/-! DEFINITION. Several engines side by side (60_exceptions.md R133): independent copies of the state, one of which
steps while the others stay as they are. -/

namespace Sys2Proof.Machine

/-- Engine `k` takes a step. With no engine `k` there is nothing to step and nothing changes. -/
def stepEngine (k : Nat) (engines : List State) : Host.Outcome (List State) Fault Refusal :=
  match engines[k]? with
  | none => .next engines
  | some s =>
    match step s with
    | .next t => .next (engines.set k t)
    | .fault r => .fault r
    | .refused r => .refused r

end Sys2Proof.Machine
end

