-- ==== Sys2Proof/Machine/Sponge.lean ====
section
/-! DEFINITION. The sponge function of 42_finalize.md R101, on whole 1600-bit states and whole messages, with no engine,
no cursor and no memory: what the output of a hash computation is held against. -/

namespace Sys2Proof.Machine

/-- `pad`: the `r - t` bytes that complete a block of which `t` bytes are filled (42_finalize.md R101). -/
def spongePad (r t : Nat) (d : Byte) : List Byte :=
  if r - t = 1 then [d ^^^ 0x80#8] else d :: (List.replicate (r - t - 2) 0#8 ++ [0x80#8])

/-- The padded message `m' = m ++ pad`, with `t = |m| mod r` (42_finalize.md R101). -/
def spongeMessage (r : Nat) (d : Byte) (m : List Byte) : List Byte := m ++ spongePad r (m.length % r) d

/-- The little-endian number of a byte string (20_memory.md R31). -/
def leNat : List Byte → Nat
  | [] => 0
  | b :: bs => b.toNat + 256 * leNat bs

/-- `block ++ [0x00] * (200 - r)` seen as 25 little-endian lanes (42_finalize.md R101, 20_memory.md R31). -/
def blockLanes (block : List Byte) : Lanes :=
  Vector.ofFn fun k => BitVec.ofNat 64 (leNat ((block.drop (8 * k)).take 8))

/-- `^` on 200-byte buffers (42_finalize.md R101). -/
def xorLanes (A B : Lanes) : Lanes := Vector.ofFn fun k => A[k] ^^^ B[k]

/-- `S_k = P(S_{k-1} ^ (block_k ++ zeros))` over the first `n` blocks of `m` (42_finalize.md R101). -/
def spongeAbsorb (P : Lanes → Lanes) (r : Nat) : Nat → List Byte → Lanes → Lanes
  | 0, _, S => S
  | n + 1, m, S => spongeAbsorb P r n (m.drop r) (P (xorLanes S (blockLanes (m.take r))))

/-- The 200 bytes of a state in index order (20_memory.md R31, R32). -/
def stateBytes (L : Lanes) : List Byte := L.toList.flatMap fun l => (List.range 8).map fun j => l.extractLsb' (8 * j) 8

/-- `Z_1[0 .. r] ++ Z_2[0 .. r] ++ ...`, `n` blocks, with `Z_{k+1} = P(Z_k)` (42_finalize.md R101). -/
def spongeSqueeze (P : Lanes → Lanes) (r : Nat) : Nat → Lanes → List Byte
  | 0, _ => []
  | n + 1, Z => (stateBytes Z).take r ++ spongeSqueeze P r n (P Z)

/-- The output of `FINALIZE n` for rate `r`, delimiter `d` and message `m` (42_finalize.md R101). -/
def sponge (P : Lanes → Lanes) (r : Nat) (d : Byte) (m : List Byte) (n : Nat) : List Byte :=
  (spongeSqueeze P r (n / r + 1)
    (spongeAbsorb P r (m.length / r + 1) (spongeMessage r d m) (Vector.replicate 25 0#64))).take n

end Sys2Proof.Machine
end

