-- ==== Sys2Proof/Safety.lean ====
section
/-! DEFINITION. What a claim calls a good state and a good end: the invariants between commands (10_state.md R23), the
halted state (60_exceptions.md R125) and the end of a run (70_reset_and_hazards.md R152). -/

namespace Sys2Proof.Machine

/-- The invariants between two commands (10_state.md R23 (a) to (e)), with the canonical form of memory. They hold with
`fault = 1` too, but for `cause` (R23, last paragraph). "No command accepted since reset" of (b) is
`accepted = []`, and with it no byte taken or delivered and no permutation made. -/
abbrev State.Inv (s : State) : Prop :=
  s.mem.wf ∧
  s.phase ≠ .squeezing ∧
  (s.phase = .idle → s.rate = 0#8 ∧ s.offset = 0#8 ∧ s.delimiter = 0#8 ∧ s.mem = Memory.zeroed ∧
    s.dout = [] ∧ s.perm = [] ∧ s.accepted = [] ∧ s.dinTaken = [] ∧ s.doutTaken = []) ∧
  (s.phase = .absorbing → s.cursorInBlock) ∧
  (s.phase = .consumed → rateAccepted s.rate ∧ s.offset.toNat ≤ s.rate.toNat) ∧
  s.cnt = 0#24 ∧
  (s.fault = false ↔ s.cause = .none)

/-- 10_state.md R23(f): the bytes from the cursor on are zero, as they are until the instance's first permutation. -/
def State.zeroTail (s : State) : Prop := ∀ a, s.offset.toNat ≤ a → s.mem.read a = 0#8

/-- The cause the word `w` raises in the state `s` with `fault = 0`, `none` if it raises none: the checks of
60_exceptions.md R127 in their order, decode, then phase, then operand. -/
def State.causeOf (s : State) (w : Word) : Cause :=
  match decode w with
  | .error _ => .illegalCommand
  | .ok (.init rate _) => if rateAccepted rate then .none else .badRate
  | .ok (.absorb _) | .ok (.finalize _) =>
    match s.phase with
    | .idle => .notConstructed
    | .consumed => .useAfterFinalize
    | .absorbing | .squeezing => .none

/-- What of a state the sequence of addresses, permutations and transfers may depend on: everything but the values of
the buffer, the delimiter, the channel bytes and the trace (41_absorb.md R89, 70_reset_and_hazards.md R151). -/
structure Shape where
  rate : Byte
  offset : Byte
  phase : Phase
  fault : Bool
  cause : Cause
  cnt : Len
  rst : Bool
  cmd : List Word
  dinLen : Nat
  doutLen : Nat
  permLen : Nat
  accepted : List Instr
  dinTakenLen : Nat
  doutTakenLen : Nat
  deriving DecidableEq, Repr

/-- The shape of a state. -/
def State.shape (s : State) : Shape :=
  ⟨s.rate, s.offset, s.phase, s.fault, s.cause, s.cnt, s.rst, s.cmd, s.din.length, s.dout.length, s.perm.length,
    s.accepted, s.dinTaken.length, s.doutTaken.length⟩

/-- The run has ended: the last command has executed or a fault has been raised (70_reset_and_hazards.md R152). -/
abbrev State.runEnded (s : State) : Prop := s.cmd = [] ∨ s.fault = true

/-- The run has ended well: it has ended with `fault = 0` (70_reset_and_hazards.md R152). -/
abbrev State.endedWell (s : State) : Prop := s.cmd = [] ∧ s.fault = false

end Sys2Proof.Machine
end

