-- ==== Sys2Proof/Certificates/Slice0/Obligations.lean ====
section
/-! DEFINITION. The statements put to the provers. Statements about the engine that name a permutation `P` hold for
every `P` (43_permutation_port.md R109); those about `exec` and `step` hold for the machine's own, `Config.P`. -/

open Sys2Proof Sys2Proof.Machine

/-! ### Encoding and decoding -/

/-- 30_encoding.md R59: decoding and encoding are inverse to each other, on every word and every command. -/
def Obligations.DecodeInvertsEncode : Prop := ∀ (w : Word) (i : Instr), decode w = .ok i ↔ encode i = w

/-- 30_encoding.md R51, R52, R59: the words of the commands as numbers. -/
def Obligations.EncodedWordsAsNumbers : Prop :=
  (∀ rate delim : Byte,
    (encode (.init rate delim)).toNat = 0x01000000 + 256 * rate.toNat + delim.toNat) ∧
  (∀ len : Len, (encode (.absorb len)).toNat = 0x02000000 + len.toNat) ∧
  (∀ outlen : Len, (encode (.finalize outlen)).toNat = 0x03000000 + outlen.toNat)

/-- 30_encoding.md R55: a word is the command of the row it matches, and it matches at most one row. -/
def Obligations.DecodeFollowsOpcodeMap : Prop :=
  ∀ w : Word,
    ((∃ rate delim, decode w = .ok (.init rate delim)) ↔ w &&& 0xFFFF0000#32 = 0x01000000#32) ∧
    ((∃ len, decode w = .ok (.absorb len)) ↔ w &&& 0xFF000000#32 = 0x02000000#32) ∧
    ((∃ outlen, decode w = .ok (.finalize outlen)) ↔ w &&& 0xFF000000#32 = 0x03000000#32) ∧
    (opcodeMap.filter fun r => r.hit w).length ≤ 1

/-- 30_encoding.md R53: each operand is an unsigned field of the word as it stands, every delimiter and every length
being taken. -/
def Obligations.OperandsAreUnsignedFields : Prop :=
  (∀ (w : Word) rate delim, decode w = .ok (.init rate delim) →
    rate.toNat = w.toNat / 2 ^ 8 % 2 ^ 8 ∧ delim.toNat = w.toNat % 2 ^ 8) ∧
  (∀ (w : Word) len, decode w = .ok (.absorb len) → len.toNat = w.toNat % 2 ^ 24) ∧
  (∀ (w : Word) outlen, decode w = .ok (.finalize outlen) → outlen.toNat = w.toNat % 2 ^ 24) ∧
  (∀ rate delim : Byte, ∃ w, decode w = .ok (.init rate delim)) ∧
  (∀ len : Len, ∃ w, decode w = .ok (.absorb len)) ∧
  (∀ outlen : Len, ∃ w, decode w = .ok (.finalize outlen))

/-- 30_encoding.md R63: worked words, each written out from the formats. -/
def Obligations.WorkedWordsDecode : Prop :=
  decode 0x01008801#32 = .ok (.init 136 0x01) ∧
  decode 0x0100C8FF#32 = .ok (.init 200 0xFF) ∧
  decode 0x01000001#32 = .ok (.init 0 0x01) ∧
  decode 0x02000003#32 = .ok (.absorb 3) ∧
  decode 0x02FFFFFF#32 = .ok (.absorb 16777215) ∧
  decode 0x03000020#32 = .ok (.finalize 32) ∧
  decode 0x030000C8#32 = .ok (.finalize 200) ∧
  decode 0x01018801#32 = .error .nonzeroField ∧
  decode 0x00000000#32 = .error .reservedOpcode ∧
  decode 0x04000000#32 = .error .reservedOpcode ∧
  decode 0xFFFFFFFF#32 = .error .reservedOpcode

/-! ### One step -/

/-- 20_memory.md R41, 60_exceptions.md R127: with no reset asserted and no fault, the command at the head of `cmd` runs,
and one step is `exec` of it; `exec` itself takes the word from `cmd`. -/
def Obligations.StepRunsDecodedCommand : Prop :=
  ∀ (s : State) (w : Word) (rest : List Word) (i : Instr),
    s.rst = false → s.fault = false → s.cmd = w :: rest → decode w = .ok i → i.wellFormed = true → step s = exec i s

/-- 00_scope.md R6, 43_permutation_port.md R109: the machine is the engine that is written for any permutation, at the
permutation `KeccakF1600`. That `Config.P` is the spec's default is the model's choice, assumption log 2. -/
def Obligations.StepIsTheEngineAtItsPermutation : Prop :=
  (∀ i s, exec i s = execWith Config.P i s) ∧ (∀ s, step s = stepWith Config.P s) ∧ Config.P = keccakF1600

/-- 10_state.md R24: after reset every piece of state has its specified value, whatever the state before. -/
def Obligations.ResetGivesSpecifiedValues : Prop :=
  (∀ s : State, s.rst = true → step s = .next State.reset) ∧
  (∀ a, State.reset.mem.read a = 0#8) ∧
  (∀ k, State.reset.mem.lane k = 0#64) ∧
  State.reset.rate = 0#8 ∧ State.reset.delimiter = 0x00#8 ∧ State.reset.offset = 0#8 ∧
  State.reset.phase = .idle ∧ State.reset.fault = false ∧ State.reset.cause = .none ∧ State.reset.cnt = 0#24 ∧
  State.reset.status = 0x00000000#32 ∧
  State.reset.cmd = [] ∧ State.reset.din = [] ∧ State.reset.dout = [] ∧ State.reset.perm = []

/-- 60_exceptions.md R125: with `fault = 1` no step but a reset changes anything, no command is taken, INIT included, and
`status` shows the fault and its cause. -/
def Obligations.HaltedEngineDoesNothing : Prop :=
  ∀ s : State, s.fault = true →
    (s.rst = false → step s = .next s) ∧ (∀ i, exec i s = .next s) ∧
    s.status.extractLsb' 26 1 = 1#1 ∧ s.status.extractLsb' 27 3 = s.cause.code

/-- 70_reset_and_hazards.md R141, 20_memory.md R42: the engine waits, nothing changed, for a command, and in an accepted
ABSORB for its payload. That a wait is a step that changes nothing is the model's choice, assumption logs 6 and 7. -/
def Obligations.EngineWaitsForItsInputs : Prop :=
  (∀ s : State, s.rst = false → s.cmd = [] → step s = .next s) ∧
  (∀ (s : State) (len : Len), s.fault = false → s.phase = .absorbing → s.cursorInBlock → s.din.length < len.toNat →
    exec (.absorb len) s = .next s) ∧
  (∀ (s : State) (w : Word) (rest : List Word) (len : Len), s.rst = false → s.phase = .absorbing → s.cursorInBlock →
    s.cmd = w :: rest → decode w = .ok (.absorb len) → s.din.length < len.toNat → step s = .next s)

/-! ### Invariants -/

/-- 10_state.md R23, R24: the invariants between commands hold after reset. -/
def Obligations.ResetSatisfiesInvariants : Prop := State.reset.Inv

/-- 10_state.md R23: every step keeps the invariants between commands, from every state that has them. -/
def Obligations.StepKeepsInvariants : Prop := ∀ s t : State, s.Inv → step s = .next t → t.Inv

/-- The memory's canonical form (addresses strictly rising and inside the buffer, 20_memory.md R30, no entry with the
reset value) is kept by every step from every state that has it. -/
def Obligations.StepKeepsMemoryCanonical : Prop := ∀ s t : State, s.mem.wf → step s = .next t → t.mem.wf

/-- 70_reset_and_hazards.md R152, 60_exceptions.md R128: from a state with the invariants a step always has a next
state; the model's own stops are met only outside them. -/
def Obligations.StepNeverStopsUnderInvariants : Prop := ∀ s : State, s.Inv → ∃ t, step s = .next t

/-- 70_reset_and_hazards.md R143: whatever the host does at the ports between two commands keeps the invariants. -/
def Obligations.HostActionsKeepInvariants : Prop :=
  ∀ s : State, s.Inv →
    (∀ w, (s.sendCmd w).Inv) ∧ (∀ bs, (s.sendDin bs).Inv) ∧ (∀ n, (s.takeDout n).2.Inv) ∧ s.assertRst.Inv ∧
    (∀ l, (s.sendLine l).Inv)

/-! ### INIT -/

/-- 40_construct.md R70, R71: an INIT with a rate of 1 to 200 completes, in every phase and from every state with
`fault = 0`; all 200 bytes are zero, and everything it does not name keeps its value. That it leaves `cnt` and `cause`
alone is assumption log 19, and that it is recorded as accepted is log 25. -/
def Obligations.InitCompletes : Prop :=
  ∀ (s : State) (rate delim : Byte), s.fault = false → 1 ≤ rate.toNat → rate.toNat ≤ 200 →
    exec (.init rate delim) s =
      .next { s with
        mem := Memory.zeroed, rate := rate, delimiter := delim, offset := 0#8, phase := .absorbing,
        cmd := s.cmd.tail, accepted := s.accepted ++ [.init rate delim] }

/-- 40_construct.md R70, R72: INIT with a rate of 1 to 200 constructs an instance, in every phase; with any other rate it
raises BadRate. Everything it does not name keeps its value. That a faulting INIT's word is taken from `cmd` is
assumption log 8, that an accepted one leaves `cnt` and `cause` alone is log 19, that it is recorded as accepted is
log 25. -/
def Obligations.InitConstructsOrRaisesBadRate : Prop :=
  (∀ (s : State) (rate delim : Byte), s.fault = false → 1 ≤ rate.toNat → rate.toNat ≤ 200 →
    ∃ t, exec (.init rate delim) s = .next t ∧
      (∀ a, t.mem.read a = 0x00#8) ∧
      t = { s with
        mem := t.mem, rate := rate, delimiter := delim, offset := 0#8, phase := .absorbing, cmd := s.cmd.tail,
        accepted := s.accepted ++ [.init rate delim] }) ∧
  (∀ (s : State) (rate delim : Byte), s.fault = false → (rate.toNat = 0 ∨ 201 ≤ rate.toNat) →
    exec (.init rate delim) s = .next { s with fault := true, cause := .badRate, cmd := s.cmd.tail })

/-- 10_state.md R25: after an accepted INIT the engine state is the same whatever it was before. INIT itself writes neither
`cnt` nor `cause` (assumption log 19): that they are 0 after it comes from the invariants of 10_state.md R23, which stand
here for R25's "whatever the state was before". -/
def Obligations.InitForgetsTheStateBefore : Prop :=
  ∀ (s : State) (rate delim : Byte), s.Inv → s.fault = false → 1 ≤ rate.toNat → rate.toNat ≤ 200 →
    ∃ t, exec (.init rate delim) s = .next t ∧
      t.toEngine = { mem := State.reset.mem, rate := rate, delimiter := delim, offset := 0#8, phase := .absorbing,
                     fault := false, cause := .none, cnt := 0#24 }

/-- 40_construct.md R77, R72, 60_exceptions.md R124: whatever INIT answers, it does not permute, does not touch `din` or
`dout`, and does not clear `fault`; a faulting one changes no register and no byte. That it leaves `cnt`, and without a
fault `cause`, as they were is assumption log 19. -/
def Obligations.InitFrame : Prop :=
  ∀ (s t : State) (rate delim : Byte), exec (.init rate delim) s = .next t →
    t.din = s.din ∧ t.dout = s.dout ∧ t.perm = s.perm ∧ t.cnt = s.cnt ∧ t.rst = s.rst ∧
    t.dinTaken = s.dinTaken ∧ t.doutTaken = s.doutTaken ∧
    (s.fault = true → t.fault = true) ∧ (t.fault = false → t.cause = s.cause) ∧
    (t.fault = true → t.mem = s.mem ∧ t.rate = s.rate ∧ t.delimiter = s.delimiter ∧ t.offset = s.offset ∧
      t.phase = s.phase ∧ t.accepted = s.accepted)

/-! ### ABSORB -/

/-- 41_absorb.md R80, R83: an ABSORB in ABSORBING with its payload on `din` completes; the cursor and the number of
permutations it leaves, the bytes it takes, and what it leaves alone. The record of what was accepted is assumption
log 25. -/
def Obligations.AbsorbCompletes : Prop :=
  ∀ (s : State) (len : Len), s.fault = false → s.phase = .absorbing → s.cursorInBlock → len.toNat ≤ s.din.length →
    ∃ t, exec (.absorb len) s = .next t ∧
      t.offset.toNat = (s.offset.toNat + len.toNat) % s.rate.toNat ∧
      t.perm.length = s.perm.length + (s.offset.toNat + len.toNat) / s.rate.toNat ∧
      t = { s with
        mem := t.mem, offset := t.offset, cnt := 0#24, perm := t.perm, cmd := s.cmd.tail,
        din := s.din.drop len.toNat, accepted := s.accepted ++ [.absorb len],
        dinTaken := s.dinTaken ++ s.din.take len.toNat }

/-- 41_absorb.md R80, R87, 20_memory.md R38: an ABSORB that leaves room in the block XORs payload byte `i` into
`B[offset + i]` and touches no other byte. -/
def Obligations.AbsorbWithRoomXorsItsBytes : Prop :=
  ∀ (s : State) (len : Len), s.mem.wf → s.fault = false → s.phase = .absorbing → s.cursorInBlock →
    len.toNat ≤ s.din.length → s.offset.toNat + len.toNat < s.rate.toNat →
    ∃ t, exec (.absorb len) s = .next t ∧ t.offset.toNat = s.offset.toNat + len.toNat ∧ t.perm = s.perm ∧
      (∀ i, i < len.toNat →
        t.mem.read (s.offset.toNat + i) = s.mem.read (s.offset.toNat + i) ^^^ s.din.getD i 0#8) ∧
      (∀ a, a < s.offset.toNat ∨ s.offset.toNat + len.toNat ≤ a → t.mem.read a = s.mem.read a)

/-- 41_absorb.md R86: an ABSORB that fills the block exactly permutes in the same step, handing over the buffer with its
bytes XORed in, and leaves the result and `offset = 0`. -/
def Obligations.AbsorbFillingBlockPermutesAtOnce : Prop :=
  ∀ (s : State) (len : Len), s.mem.wf → s.fault = false → s.phase = .absorbing → s.cursorInBlock →
    len.toNat ≤ s.din.length → s.offset.toNat + len.toNat = s.rate.toNat →
    ∃ t L, exec (.absorb len) s = .next t ∧ t.offset = 0#8 ∧ t.perm = s.perm ++ [L] ∧
      t.mem = Memory.ofLanes (Config.P L) ∧
      ∀ a, a < 200 → lanesByte L a =
        if s.offset.toNat ≤ a ∧ a < s.rate.toNat then s.mem.read a ^^^ s.din.getD (a - s.offset.toNat) 0#8
        else s.mem.read a

/-- 41_absorb.md R82: ABSORB of no bytes changes nothing but that its word is taken and it is recorded as accepted
(00_scope.md R9(d), assumption log 25). -/
def Obligations.AbsorbOfNothingChangesNothing : Prop :=
  ∀ s : State, s.Inv → s.fault = false → s.phase = .absorbing →
    exec (.absorb 0#24) s = .next { s with cmd := s.cmd.tail, accepted := s.accepted ++ [.absorb 0#24] }

/-- 41_absorb.md R85: the block form and the byte-serial form are equivalent, for every permutation. -/
def Obligations.AbsorbEqualsByteSerialForm : Prop :=
  ∀ (P : Lanes → Lanes) (s : State) (len : Len), s.fault = false → s.phase = .absorbing → s.cursorInBlock →
    len.toNat ≤ s.din.length →
    execWith P (.absorb len) s =
      .next (absorbSerial P (s.din.take len.toNat)
        { s with
          cnt := 0#24, cmd := s.cmd.tail, din := s.din.drop len.toNat, accepted := s.accepted ++ [.absorb len],
          dinTaken := s.dinTaken ++ s.din.take len.toNat })

/-- 41_absorb.md R84: however a message is split into ABSORBs, the state after the last is the state one ABSORB of the
whole leaves, but for the words left on `cmd` and the commands recorded as accepted; for every permutation. -/
def Obligations.AbsorbSplitsAgree : Prop :=
  ∀ (P : Lanes → Lanes) (s : State) (lens : List Len) (total : Len), s.fault = false → s.phase = .absorbing →
    s.cursorInBlock → s.cnt = 0#24 → (lens.map BitVec.toNat).sum = total.toNat → total.toNat ≤ s.din.length →
    ∃ t u, execAll P (lens.map Instr.absorb) s = .next t ∧ execWith P (.absorb total) s = .next u ∧
      t.accepted = s.accepted ++ lens.map Instr.absorb ∧ { t with cmd := u.cmd, accepted := u.accepted } = u

/-- 41_absorb.md R89, R73, 20_memory.md R36: what an ABSORB leaves alone, whatever it answers. A byte outside the
addresses `offset .. offset + len` keeps its value unless a permutation ran, and a faulting ABSORB changes only `fault`,
`cause` and `cmd`. -/
def Obligations.AbsorbFrame : Prop :=
  ∀ (s t : State) (len : Len), s.Inv → exec (.absorb len) s = .next t →
    t.rate = s.rate ∧ t.delimiter = s.delimiter ∧ t.phase = s.phase ∧ t.dout = s.dout ∧ t.rst = s.rst ∧
    t.doutTaken = s.doutTaken ∧ t.cnt = s.cnt ∧ (t.fault = false → t.cause = s.cause) ∧
    (t.fault = true → t.mem = s.mem ∧ t.offset = s.offset ∧ t.din = s.din ∧ t.perm = s.perm ∧
      t.accepted = s.accepted ∧ t.dinTaken = s.dinTaken) ∧
    (t.perm = s.perm → ∀ a, ¬(s.offset.toNat ≤ a ∧ a < s.offset.toNat + len.toNat) →
      t.mem.read a = s.mem.read a)

/-- 10_state.md R23(f): the bytes from the cursor on are zero after INIT, and stay so as long as ABSORBs permute
nothing. -/
def Obligations.TailIsZeroUntilFirstPermutation : Prop :=
  (∀ (s t : State) (rate delim : Byte), s.fault = false → exec (.init rate delim) s = .next t → t.fault = false →
    t.zeroTail) ∧
  (∀ (s t : State) (len : Len), s.Inv → s.phase = .absorbing → s.zeroTail → exec (.absorb len) s = .next t →
    t.perm = s.perm → t.zeroTail)

/-! ### FINALIZE -/

/-- 42_finalize.md R90, R95, R98: a FINALIZE in ABSORBING completes; the bytes it delivers, the cursor, the number of
permutations, the buffer, and what it leaves alone. All 200 bytes of the buffer are those of its last permutation. The
record of what was accepted is assumption log 25. -/
def Obligations.FinalizeCompletes : Prop :=
  ∀ (s : State) (outlen : Len), s.fault = false → s.phase = .absorbing → s.cursorInBlock →
    ∃ t out calls L, exec (.finalize outlen) s = .next t ∧
      out.length = outlen.toNat ∧
      calls.length + 1 = max 1 ((outlen.toNat + s.rate.toNat - 1) / s.rate.toNat) ∧
      t.offset.toNat = outlen.toNat - s.rate.toNat * calls.length ∧
      t = { s with
        mem := Memory.ofLanes (Config.P L), offset := t.offset, phase := .consumed, cnt := 0#24,
        cmd := s.cmd.tail, dout := s.dout ++ out, perm := s.perm ++ calls ++ [L],
        accepted := s.accepted ++ [.finalize outlen] }

/-- 42_finalize.md R91, R92, R93: the first permutation of a FINALIZE is handed the buffer with the delimiter XORed into
`B[offset]` and 0x80 into `B[rate - 1]`, both into one byte where the two meet, and no other byte changed. -/
def Obligations.FinalizePadsTwoBytes : Prop :=
  ∀ (s : State) (outlen : Len), s.mem.wf → s.fault = false → s.phase = .absorbing → s.cursorInBlock →
    ∃ t L, exec (.finalize outlen) s = .next t ∧ t.perm[s.perm.length]? = some L ∧
      ∀ a, a < 200 → lanesByte L a =
        if a = s.offset.toNat then
          if a = s.rate.toNat - 1 then s.mem.read a ^^^ s.delimiter ^^^ 0x80#8 else s.mem.read a ^^^ s.delimiter
        else if a = s.rate.toNat - 1 then s.mem.read a ^^^ 0x80#8 else s.mem.read a

/-- 42_finalize.md R93, R94, R96: a FINALIZE of at most `rate` bytes, none included, permutes once and delivers the first
bytes of the result, `B[0]` first. -/
def Obligations.FinalizeWithinOneBlock : Prop :=
  ∀ (s : State) (outlen : Len), s.fault = false → s.phase = .absorbing → s.cursorInBlock →
    outlen.toNat ≤ s.rate.toNat →
    ∃ t L, exec (.finalize outlen) s = .next t ∧ t.perm = s.perm ++ [L] ∧ t.offset.toNat = outlen.toNat ∧
      t.dout = s.dout ++ (List.range outlen.toNat).map (lanesByte (Config.P L))

/-- 42_finalize.md R103: the block form and the byte-serial form of the squeeze are equivalent, for every permutation. -/
def Obligations.SqueezeEqualsByteSerialForm : Prop :=
  ∀ (P : Lanes → Lanes) (s : State) (outlen : Len), s.fault = false → s.phase = .absorbing → s.cursorInBlock →
    execWith P (.finalize outlen) s =
      .next ((squeezeSerial P outlen.toNat
        (((s.accept (.finalize outlen)).closeBlock P).setCnt outlen)).setPhase .consumed)

/-- 42_finalize.md R97: the output of a shorter FINALIZE is the beginning of the output of a longer one from the same
state, for every permutation. -/
def Obligations.OutputIsBeginningOfLongerOutput : Prop :=
  ∀ (P : Lanes → Lanes) (s : State) (n n' : Len), s.fault = false → s.phase = .absorbing → s.cursorInBlock →
    n.toNat ≤ n'.toNat →
    ∃ t t', execWith P (.finalize n) s = .next t ∧ execWith P (.finalize n') s = .next t' ∧
      t.dout = t'.dout.take (s.dout.length + n.toNat)

/-- 42_finalize.md R101: INIT, any ABSORBs, FINALIZE, from any state with `fault = 0`: the bytes delivered are the closed
form of the sponge on the message, whatever the split and whatever the engine did before; for every permutation. -/
def Obligations.HashIsTheSpongeFunction : Prop :=
  ∀ (P : Lanes → Lanes) (s : State) (rate delim : Byte) (m rest : List Byte) (lens : List Len) (outlen : Len),
    s.fault = false → 1 ≤ rate.toNat → rate.toNat ≤ 200 → s.din = m ++ rest →
    (lens.map BitVec.toNat).sum = m.length →
    ∃ t, execAll P (.init rate delim :: (lens.map Instr.absorb ++ [.finalize outlen])) s = .next t ∧
      t.dout = s.dout ++ sponge P rate.toNat delim m outlen.toNat ∧ t.din = rest ∧ t.phase = .consumed ∧
      t.dinTaken = s.dinTaken ++ m ∧
      t.accepted = s.accepted ++ (.init rate delim :: (lens.map Instr.absorb ++ [.finalize outlen])) ∧
      t.perm.length = s.perm.length + m.length / rate.toNat +
        max 1 ((outlen.toNat + rate.toNat - 1) / rate.toNat)

/-- 42_finalize.md R99, R104, R95: what a FINALIZE leaves alone, whatever it answers. A faulting one changes only
`fault`, `cause` and `cmd`. -/
def Obligations.FinalizeFrame : Prop :=
  ∀ (s t : State) (outlen : Len), s.Inv → exec (.finalize outlen) s = .next t →
    t.rate = s.rate ∧ t.delimiter = s.delimiter ∧ t.din = s.din ∧ t.rst = s.rst ∧ t.cnt = s.cnt ∧
    t.dinTaken = s.dinTaken ∧ t.doutTaken = s.doutTaken ∧
    (t.fault = false → t.cause = s.cause ∧ t.phase = .consumed) ∧
    (t.fault = true → t.mem = s.mem ∧ t.offset = s.offset ∧ t.phase = s.phase ∧ t.dout = s.dout ∧ t.perm = s.perm ∧
      t.accepted = s.accepted)

/-! ### Faults and phases -/

/-- 30_encoding.md R56, 60_exceptions.md R123: a word with opcode 0x00 or 0x04 to 0xFF, or with opcode 0x01 and bits 23:16
not zero, raises IllegalCommand in every phase and changes nothing else; every other word decodes. That the faulting step
takes the word from `cmd` is assumption log 8. -/
def Obligations.IllegalWordRaisesIllegalCommand : Prop :=
  (∀ (s : State) (w : Word) (rest : List Word), s.rst = false → s.fault = false → s.cmd = w :: rest →
    (w.toNat / 2 ^ 24 = 0 ∨ 4 ≤ w.toNat / 2 ^ 24 ∨ (w.toNat / 2 ^ 24 = 1 ∧ w.toNat / 2 ^ 16 % 2 ^ 8 ≠ 0)) →
    step s = .next { s with fault := true, cause := .illegalCommand, cmd := rest }) ∧
  (∀ w : Word,
    ¬(w.toNat / 2 ^ 24 = 0 ∨ 4 ≤ w.toNat / 2 ^ 24 ∨ (w.toNat / 2 ^ 24 = 1 ∧ w.toNat / 2 ^ 16 % 2 ^ 8 ≠ 0)) →
    ∃ i, decode w = .ok i)

/-- 41_absorb.md R81, 42_finalize.md R99: ABSORB and FINALIZE raise NotConstructed in IDLE and UseAfterFinalize in
CONSUMED, whatever their length and whatever is on `din`, and change nothing else. That the faulting step takes the word
from `cmd` is assumption log 8; that an ABSORB faults so however few bytes are on `din` is log 7. -/
def Obligations.WrongPhaseRaisesItsFault : Prop :=
  (∀ (s : State) (len : Len), s.fault = false → s.phase = .idle →
    exec (.absorb len) s = .next { s with fault := true, cause := .notConstructed, cmd := s.cmd.tail } ∧
    exec (.finalize len) s = .next { s with fault := true, cause := .notConstructed, cmd := s.cmd.tail }) ∧
  (∀ (s : State) (len : Len), s.fault = false → s.phase = .consumed →
    exec (.absorb len) s = .next { s with fault := true, cause := .useAfterFinalize, cmd := s.cmd.tail } ∧
    exec (.finalize len) s = .next { s with fault := true, cause := .useAfterFinalize, cmd := s.cmd.tail })

/-- 60_exceptions.md R127: at most one fault is raised per command, and the first check that fails decides its cause. -/
def Obligations.FaultCauseFollowsPriority : Prop :=
  (∀ s t : State, s.fault = true → s.rst = false → step s = .next t → t = s) ∧
  (∀ (s t : State) (w : Word) (rest : List Word), s.rst = false → s.fault = false → s.cause = .none →
    s.cmd = w :: rest → step s = .next t →
    t.cause = s.causeOf w ∧ (t.fault = true ↔ s.causeOf w ≠ .none))

/-- 60_exceptions.md R124: the step that raises a fault sets `fault`, records the cause the word raises, takes the word and
changes nothing else; the codes of the causes. That a faulting word is taken from `cmd` is assumption log 8. -/
def Obligations.FaultEntryChangesNothingElse : Prop :=
  (∀ s t : State, step s = .next t → s.fault = false → t.fault = true →
    ∃ w rest, s.cmd = w :: rest ∧ s.causeOf w ≠ .none ∧
      t = { s with fault := true, cause := s.causeOf w, cmd := rest }) ∧
  [Cause.badRate, .useAfterFinalize, .notConstructed, .illegalCommand].map Cause.code = [1#3, 2#3, 3#3, 4#3]

/-- 60_exceptions.md R126: the only exit from the halted state is reset, which clears `fault` and `cause` with all other
state; faults do not nest, and the cause stands until the reset. -/
def Obligations.OnlyResetEndsAFault : Prop :=
  (∀ s t : State, step s = .next t → s.fault = true → t.fault = false → s.rst = true ∧ t = State.reset) ∧
  (∀ s t : State, step s = .next t → s.fault = true → s.rst = false → t.fault = true ∧ t.cause = s.cause) ∧
  (∀ s : State, s.rst = true → step s = .next State.reset) ∧ State.reset.fault = false ∧ State.reset.cause = .none

/-- 10_state.md R17: the transition table of `phase`, with the fault each cell names. -/
def Obligations.PhaseTransitionTable : Prop :=
  ∀ (s t : State), step s = .next t →
    (s.rst = true → t.phase = .idle) ∧
    (s.rst = false → s.fault = true → t.phase = s.phase) ∧
    (s.rst = false → s.fault = false → ∀ w rest, s.cmd = w :: rest →
      (∀ rate delim, decode w = .ok (.init rate delim) →
        (rateAccepted rate → t.phase = .absorbing ∧ t.fault = false) ∧
        (¬rateAccepted rate → t.phase = s.phase ∧ t.fault = true ∧ t.cause = .badRate)) ∧
      (∀ len, decode w = .ok (.absorb len) →
        (s.phase = .idle → t.phase = .idle ∧ t.fault = true ∧ t.cause = .notConstructed) ∧
        (s.phase = .absorbing → t.phase = .absorbing ∧ t.fault = false) ∧
        (s.phase = .consumed → t.phase = .consumed ∧ t.fault = true ∧ t.cause = .useAfterFinalize)) ∧
      (∀ outlen, decode w = .ok (.finalize outlen) →
        (s.phase = .idle → t.phase = .idle ∧ t.fault = true ∧ t.cause = .notConstructed) ∧
        (s.phase = .absorbing → t.phase = .consumed ∧ t.fault = false) ∧
        (s.phase = .consumed → t.phase = .consumed ∧ t.fault = true ∧ t.cause = .useAfterFinalize)))

/-! ### Rules over all steps -/

/-- 40_construct.md R73: outside a reset only INIT writes `rate` and `delimiter`, and it writes its operands. -/
def Obligations.OnlyInitWritesRateAndDelimiter : Prop :=
  ∀ s t : State, s.rst = false → step s = .next t →
    (t.rate = s.rate ∧ t.delimiter = s.delimiter) ∨
    ∃ w rest rate delim, s.cmd = w :: rest ∧ decode w = .ok (.init rate delim) ∧ t.rate = rate ∧ t.delimiter = delim

/-- 20_memory.md R42: only ABSORB takes bytes from `din`, and it takes exactly the oldest `len`. -/
def Obligations.OnlyAbsorbTakesFromDin : Prop :=
  ∀ s t : State, s.rst = false → step s = .next t →
    t.din = s.din ∨
    ∃ w rest len, s.cmd = w :: rest ∧ decode w = .ok (.absorb len) ∧ s.phase = .absorbing ∧
      len.toNat ≤ s.din.length ∧ t.din = s.din.drop len.toNat ∧ t.cmd = rest

/-- 20_memory.md R43: only FINALIZE puts bytes on `dout`; one that does not fault puts exactly `outlen` bytes, after
those already there; no other command and no fault puts any; and the host takes them in order, none lost. -/
def Obligations.OnlyFinalizePutsOnDout : Prop :=
  (∀ s t : State, s.rst = false → step s = .next t →
    (t.dout = s.dout ∨
      ∃ w rest outlen, s.cmd = w :: rest ∧ decode w = .ok (.finalize outlen) ∧ t.fault = false) ∧
    (s.fault = false → t.fault = false → ∀ w rest outlen, s.cmd = w :: rest → decode w = .ok (.finalize outlen) →
      ∃ out, out.length = outlen.toNat ∧ t.dout = s.dout ++ out)) ∧
  (∀ (s : State) (n : Nat), (s.takeDout n).1 ++ (s.takeDout n).2.dout = s.dout)

/-- 43_permutation_port.md R107, 41_absorb.md R83, 42_finalize.md R98: when the permutation is invoked and how often. INIT,
a fault, a wait and an illegal word never invoke it; the trace only grows. -/
def Obligations.PermutationIsInvokedOnlyAtItsPoints : Prop :=
  ∀ s t : State, s.rst = false → step s = .next t →
    ∃ calls, t.perm = s.perm ++ calls ∧
      (calls = [] ∨ ∃ w rest, s.cmd = w :: rest ∧ s.fault = false ∧ s.phase = .absorbing ∧
        ((∃ len, decode w = .ok (.absorb len) ∧ s.rate.toNat ≤ s.offset.toNat + len.toNat ∧
            calls.length = (s.offset.toNat + len.toNat) / s.rate.toNat) ∨
          (∃ outlen, decode w = .ok (.finalize outlen) ∧
            calls.length = max 1 ((outlen.toNat + s.rate.toNat - 1) / s.rate.toNat))))

/-- 41_absorb.md R89, 70_reset_and_hazards.md R151: what a step does to the cursor, the phase, the lengths of the channels
and the number of permutations does not depend on the values of the buffer, the delimiter or the payload. -/
def Obligations.ControlDoesNotDependOnData : Prop :=
  ∀ s s' t : State, s.shape = s'.shape → step s = .next t → ∃ t', step s' = .next t' ∧ t.shape = t'.shape

/-- 60_exceptions.md R135: the bytes a FINALIZE delivers, the permutations it invokes and the buffer it leaves are
functions of the instance (buffer, cursor, rate, delimiter), the length and `P`: nothing else enters. -/
def Obligations.FinalizeReadsOnlyTheInstance : Prop :=
  ∀ (P : Lanes → Lanes) (s s' t : State) (outlen : Len), s.mem = s'.mem → s.rate = s'.rate →
    s.delimiter = s'.delimiter → s.offset = s'.offset → s.phase = .absorbing → s'.phase = .absorbing →
    s.fault = false → s'.fault = false → execWith P (.finalize outlen) s = .next t →
    ∃ t' out calls, execWith P (.finalize outlen) s' = .next t' ∧
      t.dout = s.dout ++ out ∧ t'.dout = s'.dout ++ out ∧
      t.perm = s.perm ++ calls ∧ t'.perm = s'.perm ++ calls ∧ t.mem = t'.mem

/-- 00_scope.md R9(a), (b), (d): a step without a reset only adds to what the outside observes: at most the command at the
head of `cmd`, which has then run without a fault, the payload bytes that left `din`, the bytes that joined `dout`, and
permutations. With `fault = 0`, a command that decodes and neither faults nor waits is recorded. That the records are
fields beside the engine is the model's choice, assumption log 25. -/
def Obligations.ObservationRecordsWhatIsAccepted : Prop :=
  (∀ s t : State, s.rst = false → step s = .next t →
    t.dinTaken ++ t.din = s.dinTaken ++ s.din ∧ t.doutTaken = s.doutTaken ∧
    (∃ out, t.observe.delivered = s.observe.delivered ++ out ∧ t.dout = s.dout ++ out) ∧
    (∃ calls, t.observe.perm = s.observe.perm ++ calls) ∧
    (∃ bytes, t.observe.payload = s.observe.payload ++ bytes) ∧
    (t.observe.commands = s.observe.commands ∨
      ∃ w rest i, s.cmd = w :: rest ∧ decode w = .ok i ∧ t.cmd = rest ∧ s.fault = false ∧ t.fault = false ∧
        t.observe.commands = s.observe.commands ++ [i])) ∧
  (∀ (s t : State) (i : Instr), s.fault = false → exec i s = .next t → t.fault = false → t ≠ s →
    t.observe.commands = s.observe.commands ++ [i])

/-- 00_scope.md R9, 20_memory.md R43: what the host does at the ports between two commands, taking output and sending
included, changes nothing that was observed; an asserted `rst` alone does not either, until the step that resets. -/
def Obligations.HostActionsKeepObservation : Prop :=
  ∀ s : State, (∀ n, (s.takeDout n).2.observe = s.observe) ∧ (∀ w, (s.sendCmd w).observe = s.observe) ∧
    (∀ bs, (s.sendDin bs).observe = s.observe) ∧ (∀ l, (s.sendLine l).observe = s.observe) ∧
    s.assertRst.observe = s.observe

/-- 60_exceptions.md R133: a step of one of several engines is that engine's own step and leaves the others unchanged,
and steps of two engines give the same in either order. -/
def Obligations.EnginesAreIndependent : Prop :=
  (∀ (k : Nat) (engines after : List State), stepEngine k engines = .next after →
    after.length = engines.length ∧ (∀ j, j ≠ k → after[j]? = engines[j]?) ∧
    (∀ s, engines[k]? = some s → ∃ t, step s = .next t ∧ after[k]? = some t)) ∧
  (∀ (j k : Nat) (engines a b : List State), j ≠ k → stepEngine j engines = .next a → stepEngine k engines = .next b →
    ∃ c, stepEngine k a = .next c ∧ stepEngine j b = .next c)

/-! ### The two views of the buffer, the port and the status word -/

/-- 20_memory.md R31: lanes are little-endian in the buffer, `L[k]` the sum of `B[8*k + j] * 256^j`, and `B[i]` is
`(L[i div 8] div 256^(i mod 8)) mod 256`. -/
def Obligations.LanesAreLittleEndianBytes : Prop :=
  ∀ m : Memory,
    (∀ k, k < 25 → (m.lane k).toNat = ((List.range 8).map fun j => (m.read (8 * k + j)).toNat * 256 ^ j).sum) ∧
    (∀ i, i < 200 → (m.read i).toNat = (m.lane (i / 8)).toNat / 256 ^ (i % 8) % 256)

/-- 43_permutation_port.md R105, R108: an invocation hands over all 25 lanes, records them, replaces all 25 by the result
and touches no other state. -/
def Obligations.PermuteReplacesAllLanes : Prop :=
  ∀ (P : Lanes → Lanes) (s : State),
    (s.permute P).mem.lanes = P s.mem.lanes ∧
    s.permute P = { s with mem := (s.permute P).mem, perm := s.perm ++ [s.mem.lanes] } ∧
    ∀ k : Fin 25, s.mem.lanes[k] = s.mem.lane k

/-- 10_state.md R22: the fields of the status word, its zero bits, the codes of `phase` of which SQUEEZING is never seen
between commands, its reset value, and that it shows no byte of the buffer. -/
def Obligations.StatusWordFields : Prop :=
  (∀ e : Engine,
    e.status.extractLsb' 0 8 = e.delimiter ∧ e.status.extractLsb' 8 8 = e.rate ∧
    e.status.extractLsb' 16 8 = e.offset ∧ e.status.extractLsb' 24 2 = e.phase.code ∧
    e.status.extractLsb' 26 1 = BitVec.ofBool e.fault ∧ e.status.extractLsb' 27 3 = e.cause.code ∧
    e.status.extractLsb' 30 2 = 0#2) ∧
  (∀ (e : Engine) (m : Memory), { e with mem := m }.status = e.status) ∧
  (∀ s : State, s.Inv → s.status.extractLsb' 24 2 ≠ 2#2) ∧
  [Phase.idle, .absorbing, .squeezing, .consumed].map Phase.code = [0#2, 1#2, 2#2, 3#2] ∧
  State.reset.status = 0x00000000#32

/-! ### The permutation -/

/-- 43_permutation_port.md R112: the lane at `k` is rotated by `RHO[k]` and stored at `PI[k] = y + 5*((2*x + 3*y) mod 5)`,
and every destination is written exactly once. -/
def Obligations.RhoPiMovesEachLaneOnce : Prop :=
  (∀ (A : Lanes) (k : Fin 25), (rhoPi A)[piDest k] = rotl64 A[k] rhoOffset[k]) ∧
  (∀ k : Fin 25, (piDest k).val = k.val / 5 + 5 * ((2 * (k.val % 5) + 3 * (k.val / 5)) % 5)) ∧
  Function.Bijective piDest

/-- 43_permutation_port.md R106, R116: the machine's permutation meets the port's contract: it is a bijection of the 1600
bits. (It is a total function of its lanes and of nothing else by its type.) -/
def Obligations.MachinePermutationIsBijective : Prop := Function.Bijective Config.P

/-! ### The assembler -/

/-- 40_construct.md R74: the four named variants, their rates, capacities and delimiter, and the words they stand for. -/
def Obligations.NamedVariantsAreTheirInits : Prop :=
  (securityLevels.map fun b => (b, levelRate b, 200 - levelRate b, levelDelim, b / 8)) =
    [(224, 144, 56, 0x01, 28), (256, 136, 64, 0x01, 32), (384, 104, 96, 0x01, 48), (512, 72, 128, 0x01, 64)] ∧
  (∀ b, (AsmLine.initLevel b).assemble = (AsmLine.init (levelRate b) 0x01).assemble) ∧
  (AsmLine.initLevel 224).assemble = [⟨0x01009001#32, []⟩] ∧
  (AsmLine.initLevel 256).assemble = [⟨0x01008801#32, []⟩] ∧
  (AsmLine.initLevel 384).assemble = [⟨0x01006801#32, []⟩] ∧
  (AsmLine.initLevel 512).assemble = [⟨0x01004801#32, []⟩]

/-- 30_encoding.md R60, R59: a well-formed line assembles to the word of the command it names, with its data as
payload. -/
def Obligations.AssembledLinesDecode : Prop :=
  (∀ rate delim, (AsmLine.init rate delim).wellFormed = true →
    ∃ w, (AsmLine.init rate delim).assemble = [⟨w, []⟩] ∧
      ∃ r d : Byte, r.toNat = rate ∧ d.toNat = delim ∧ decode w = .ok (.init r d)) ∧
  (∀ data, (AsmLine.absorb data).wellFormed = true →
    ∃ w, (AsmLine.absorb data).assemble = [⟨w, data⟩] ∧
      ∃ n : Len, n.toNat = data.length ∧ decode w = .ok (.absorb n)) ∧
  (∀ outlen, (AsmLine.finalize outlen).wellFormed = true →
    ∃ w, (AsmLine.finalize outlen).assemble = [⟨w, []⟩] ∧
      ∃ n : Len, n.toNat = outlen ∧ decode w = .ok (.finalize n))

/-- 30_encoding.md R61: `UPDATE` sends its data, in order and whole, as ABSORBs each of which carries its own length, at
most `2^24 - 1` bytes. -/
def Obligations.UpdateSendsItsDataWhole : Prop :=
  ∀ data : List Byte,
    ((AsmLine.update data).assemble.flatMap Sent.payload) = data ∧
    (∀ c ∈ (AsmLine.update data).assemble, c.payload.length ≤ 16777215 ∧
      ∃ n : Len, n.toNat = c.payload.length ∧ decode c.word = .ok (.absorb n)) ∧
    (data.length ≤ 16777215 → (AsmLine.update data).assemble = (AsmLine.absorb data).assemble)
end

