-- ==== Sys2Proof/Laws/Memory.lean ====
section
/-! SUPPORT. The laws of the buffer: reads after writes, the canonical form, and the two views. -/

namespace Sys2Proof.Laws

open Sys2Proof.Machine

@[simp] theorem read_nil (a : Nat) : Memory.read [] a = 0#8 := rfl

theorem read_cons (c : Host.Cell) (m : Memory) (a : Nat) :
    Memory.read (c :: m) a = if c.1 = a then c.2 else m.read a := rfl

@[simp] theorem read_zeroed (a : Nat) : Memory.zeroed.read a = 0#8 := rfl

theorem wf_nil : Memory.wf [] := by simp [Memory.wf]

theorem wf_zeroed : Memory.zeroed.wf := wf_nil

/-- A canonical list with at least one entry: the head is legal, comes before the rest, and the rest is canonical. -/
theorem wf_cons {c : Host.Cell} {m : Memory} :
    Memory.wf (c :: m) ↔ (c.1 < 200 ∧ c.2 ≠ 0#8 ∧ (∀ d ∈ m, c.1 < d.1)) ∧ Memory.wf m := by
  simp only [Memory.wf, List.pairwise_cons, List.mem_cons, forall_eq_or_imp]
  tauto

/-- An address no entry has reads as an unlisted address. -/
theorem read_of_not_listed {m : Memory} {a : Nat} (h : ∀ c ∈ m, c.1 ≠ a) : m.read a = 0#8 := by
  induction m with
  | nil => rfl
  | cons c m ih =>
    rw [read_cons, if_neg (h c (by simp))]
    exact ih fun d hd => h d (by simp [hd])

/-- Nothing outside the buffer is listed. -/
theorem read_of_ge {m : Memory} (h : m.wf) {a : Nat} (ha : 200 ≤ a) : m.read a = 0#8 :=
  read_of_not_listed fun c hc => by have := (h.2 c hc).1; omega

/-- A write changes no other address, whatever form the list has. -/
theorem read_write_ne (m : Memory) {a x : Nat} (b : Byte) (h : x ≠ a) : (m.write a b).read x = m.read x := by
  induction m with
  | nil => simp only [Memory.write]; split <;> simp [read_cons, h.symm]
  | cons c m ih =>
    simp only [Memory.write]
    split
    · split <;> simp [read_cons, h.symm]
    · split
      · next h' => split <;> simp [read_cons, h.symm, ← h']
      · simp [read_cons, ih]

/-- A read after a write to the same address gives the byte written. -/
theorem read_write_self {m : Memory} (hm : m.wf) (a : Nat) (b : Byte) : (m.write a b).read a = b := by
  induction m with
  | nil => simp only [Memory.write]; split <;> simp_all [read_cons]
  | cons c m ih =>
    obtain ⟨⟨_, _, hlt⟩, hwf⟩ := wf_cons.1 hm
    simp only [Memory.write]
    split
    · next hac =>
      split
      · next hb =>
        rw [hb]
        refine read_of_not_listed fun d hd => ?_
        rcases List.mem_cons.1 hd with rfl | hd
        · omega
        · have := hlt d hd; omega
      · simp [read_cons]
    · split
      · next hac =>
        split
        · next hb =>
          rw [hb]
          exact read_of_not_listed fun d hd => by have := hlt d hd; omega
        · simp [read_cons]
      · next hac => rw [read_cons, if_neg (fun h => hac h.symm)]; exact ih hwf

theorem read_write {m : Memory} (hm : m.wf) (a x : Nat) (b : Byte) :
    (m.write a b).read x = if x = a then b else m.read x := by
  split
  · next h => rw [h, read_write_self hm]
  · next h => exact read_write_ne m b h

/-- What a write lists was listed before or is the address written. -/
theorem mem_write {m : Memory} {a : Nat} {b : Byte} {c : Host.Cell} (h : c ∈ m.write a b) :
    c ∈ m ∨ (c = (a, b) ∧ b ≠ 0#8) := by
  induction m with
  | nil => simp only [Memory.write] at h; split at h <;> simp_all
  | cons d m ih =>
    simp only [Memory.write] at h
    split at h
    · split at h
      · exact .inl h
      · rcases List.mem_cons.1 h with rfl | h
        · exact .inr ⟨rfl, by simpa using ‹_›⟩
        · exact .inl h
    · split at h
      · split at h
        · exact .inl (List.mem_cons_of_mem _ h)
        · rcases List.mem_cons.1 h with rfl | h
          · exact .inr ⟨rfl, by simpa using ‹_›⟩
          · exact .inl (List.mem_cons_of_mem _ h)
      · rcases List.mem_cons.1 h with rfl | h
        · exact .inl (by simp)
        · exact (ih h).imp (List.mem_cons_of_mem _) id

/-- A write inside the buffer keeps the canonical form. -/
theorem wf_write {m : Memory} (hm : m.wf) {a : Nat} (ha : a < 200) (b : Byte) : (m.write a b).wf := by
  induction m with
  | nil => simp only [Memory.write]; split <;> simp_all [Memory.wf]
  | cons c m ih =>
    obtain ⟨⟨hc, hc0, hlt⟩, hwf⟩ := wf_cons.1 hm
    simp only [Memory.write]
    split
    · next hac =>
      split
      · exact hm
      · next hb =>
        refine wf_cons.2 ⟨⟨ha, hb, fun d hd => ?_⟩, hm⟩
        rcases List.mem_cons.1 hd with rfl | hd
        · exact hac
        · exact Nat.lt_trans hac (hlt d hd)
    · split
      · next hac =>
        split
        · exact hwf
        · next hb => exact wf_cons.2 ⟨⟨ha, hb, fun d hd => hac ▸ hlt d hd⟩, hwf⟩
      · refine wf_cons.2 ⟨⟨hc, hc0, fun d hd => ?_⟩, ih hwf⟩
        rcases mem_write hd with hd | ⟨rfl, _⟩
        · exact hlt d hd
        · simp only; omega

/-- Canonical memories that read alike are equal. -/
theorem memory_ext {m n : Memory} (hm : m.wf) (hn : n.wf) (h : ∀ a, m.read a = n.read a) : m = n := by
  induction m generalizing n with
  | nil =>
    cases n with
    | nil => rfl
    | cons d n =>
      have := h d.1
      rw [read_cons, if_pos rfl] at this
      exact absurd this.symm (wf_cons.1 hn).1.2.1
  | cons c m ih =>
    obtain ⟨⟨_, hc0, hclt⟩, hmwf⟩ := wf_cons.1 hm
    cases n with
    | nil =>
      have := h c.1
      rw [read_cons, if_pos rfl] at this
      exact absurd this hc0
    | cons d n =>
      obtain ⟨⟨_, hd0, hdlt⟩, hnwf⟩ := wf_cons.1 hn
      have hcm : Memory.read m c.1 = 0#8 := read_of_not_listed fun e he => by have := hclt e he; omega
      have hdn : Memory.read n d.1 = 0#8 := read_of_not_listed fun e he => by have := hdlt e he; omega
      have key : c.1 = d.1 := by
        by_contra hne
        rcases Nat.lt_or_gt_of_ne hne with hlt | hlt
        · have h1 := h c.1
          rw [read_cons, if_pos rfl, read_cons, if_neg (Ne.symm hne),
            read_of_not_listed fun e he => by have := hdlt e he; omega] at h1
          exact hc0 h1
        · have h1 := h d.1
          rw [read_cons, if_neg hne, read_cons, if_pos rfl,
            read_of_not_listed fun e he => by have := hclt e he; omega] at h1
          exact hd0 h1.symm
      have hval : c.2 = d.2 := by
        have h1 := h c.1
        rwa [read_cons, if_pos rfl, read_cons, if_pos key.symm] at h1
      have hcd : c = d := Prod.ext key hval
      subst hcd
      congr 1
      refine ih hmwf hnwf fun a => ?_
      by_cases ha : c.1 = a
      · subst ha; rw [hcm, hdn]
      · have h1 := h a
        rwa [read_cons, if_neg ha, read_cons, if_neg ha] at h1

/-! ### A buffer given by its bytes -/

/-- `Memory.ofBytes` over any rising list of addresses. -/
theorem mem_ofBytes {f : Nat → Byte} {c : Host.Cell} :
    c ∈ Memory.ofBytes f ↔ c.1 < 200 ∧ c.2 = f c.1 ∧ c.2 ≠ 0#8 := by
  obtain ⟨a, b⟩ := c
  simp only [Memory.ofBytes, List.mem_filterMap, List.mem_range]
  constructor
  · rintro ⟨x, hx, h⟩
    split at h
    · cases h
    · cases h; exact ⟨hx, rfl, by assumption⟩
  · rintro ⟨h1, h2, h3⟩
    exact ⟨a, h1, by rw [← h2, if_neg h3]⟩

theorem wf_ofBytes (f : Nat → Byte) : (Memory.ofBytes f).wf := by
  refine ⟨?_, fun c hc => ⟨(mem_ofBytes.1 hc).1, (mem_ofBytes.1 hc).2.2⟩⟩
  simp only [Memory.ofBytes]
  refine List.Pairwise.filterMap (R := fun a b : Nat => a < b) _ ?_ List.pairwise_lt_range
  intro a a' haa b hb b' hb'
  split at hb
  · cases hb
  · split at hb'
    · cases hb'
    · cases hb; cases hb'; exact haa

/-- In a list with distinct addresses, a listed entry is what its address reads as. -/
theorem read_of_mem {m : Memory} (hm : m.wf) {c : Host.Cell} (hc : c ∈ m) : m.read c.1 = c.2 := by
  induction m with
  | nil => simp at hc
  | cons d m ih =>
    obtain ⟨⟨_, _, hlt⟩, hwf⟩ := wf_cons.1 hm
    rcases List.mem_cons.1 hc with rfl | hc
    · simp [read_cons]
    · have := hlt c hc
      rw [read_cons, if_neg (by omega), ih hwf hc]

theorem read_ofBytes (f : Nat → Byte) {a : Nat} (ha : a < 200) : (Memory.ofBytes f).read a = f a := by
  by_cases h0 : f a = 0#8
  · rw [h0]
    refine read_of_not_listed fun c hc hca => ?_
    obtain ⟨_, h2, h3⟩ := mem_ofBytes.1 hc
    rw [hca] at h2
    exact h3 (h2.trans h0)
  · exact read_of_mem (c := (a, f a)) (wf_ofBytes f) (mem_ofBytes.2 ⟨ha, rfl, h0⟩)

/-! ### Read-modify-writes -/

theorem wf_xorByte {m : Memory} (hm : m.wf) {a : Nat} (ha : a < 200) (b : Byte) : (m.xorByte a b).wf :=
  wf_write hm ha _

theorem read_xorByte {m : Memory} (hm : m.wf) (a x : Nat) (b : Byte) :
    (m.xorByte a b).read x = if x = a then m.read a ^^^ b else m.read x :=
  read_write hm a x _

@[simp] theorem xorBytes_nil (m : Memory) (a : Nat) : m.xorBytes a [] = m := by cases m <;> rfl

@[simp] theorem xorBytes_cons (m : Memory) (a : Nat) (b : Byte) (bs : List Byte) :
    m.xorBytes a (b :: bs) = (m.xorByte a b).xorBytes (a + 1) bs := by cases m <;> rfl

theorem wf_xorBytes {m : Memory} (hm : m.wf) {a : Nat} {bs : List Byte} (h : a + bs.length ≤ 200) :
    (m.xorBytes a bs).wf := by
  induction bs generalizing m a with
  | nil => simpa using hm
  | cons b bs ih =>
    simp only [List.length_cons] at h
    rw [xorBytes_cons]
    exact ih (wf_xorByte hm (by omega) b) (by omega)

/-- The XOR of a chunk: byte `i` of it goes to `a + i`, and no other address changes (20_memory.md R38). -/
theorem read_xorBytes {m : Memory} (hm : m.wf) {a : Nat} {bs : List Byte} (h : a + bs.length ≤ 200) (x : Nat) :
    (m.xorBytes a bs).read x =
      if a ≤ x ∧ x < a + bs.length then m.read x ^^^ bs.getD (x - a) 0#8 else m.read x := by
  induction bs generalizing m a with
  | nil => simp
  | cons b bs ih =>
    simp only [List.length_cons] at h ⊢
    rw [xorBytes_cons, ih (wf_xorByte hm (by omega) b) (by omega), read_xorByte hm]
    by_cases hx : x = a
    · subst hx
      rw [if_neg (by omega), if_pos rfl, if_pos (by omega)]
      simp
    · rw [if_neg hx]
      by_cases hr : a + 1 ≤ x ∧ x < a + 1 + bs.length
      · rw [if_pos hr, if_pos (by omega)]
        obtain ⟨k, rfl⟩ : ∃ k, x = a + 1 + k := ⟨x - (a + 1), by omega⟩
        have e1 : a + 1 + k - (a + 1) = k := by omega
        have e2 : a + 1 + k - a = k + 1 := by omega
        simp [e1, e2]
      · rw [if_neg hr, if_neg (by omega)]

/-- XORing two chunks one after the other is XORing them as one. -/
theorem xorBytes_append (m : Memory) (a : Nat) (bs cs : List Byte) :
    m.xorBytes a (bs ++ cs) = (m.xorBytes a bs).xorBytes (a + bs.length) cs := by
  induction bs generalizing m a with
  | nil => simp
  | cons b bs ih =>
    simp only [List.cons_append, xorBytes_cons, ih, List.length_cons]
    congr 1; omega

/-! ### The lane view -/

theorem memRead_lt (m : Memory) (a n : Nat) : m.memRead a n < 256 ^ n := by
  induction n generalizing a with
  | zero => simp [Memory.memRead]
  | succ n ih =>
    have h1 := ih (a + 1)
    have h2 : (m.read a).toNat < 256 := (m.read a).isLt
    simp only [Memory.memRead, Nat.pow_succ]
    omega

/-- Byte `j` of `MemRead(a, n)` is `B[a + j]`. -/
theorem memRead_byte (m : Memory) {a n j : Nat} (h : j < n) :
    m.memRead a n / 256 ^ j % 256 = (m.read (a + j)).toNat := by
  induction n generalizing a j with
  | zero => omega
  | succ n ih =>
    have h2 : (m.read a).toNat < 256 := (m.read a).isLt
    simp only [Memory.memRead]
    cases j with
    | zero => simp only [Nat.pow_zero, Nat.div_one, Nat.add_zero]; omega
    | succ j =>
      have e : ((m.read a).toNat + 256 * m.memRead (a + 1) n) / 256 ^ (j + 1) =
          m.memRead (a + 1) n / 256 ^ j := by
        rw [Nat.pow_succ, Nat.mul_comm (256 ^ j) 256, ← Nat.div_div_eq_div_mul]
        congr 1; omega
      rw [e, ih (by omega)]
      congr 2; omega

theorem lane_toNat (m : Memory) (k : Nat) : (m.lane k).toNat = m.memRead (8 * k) 8 := by
  have := memRead_lt m (8 * k) 8
  simp only [Memory.lane, BitVec.toNat_ofNat]
  exact Nat.mod_eq_of_lt (by simpa using this)

theorem laneByte_toNat (l : Lane) (j : Nat) : (laneByte l j).toNat = l.toNat / 256 ^ j % 256 := by
  have : (2 : Nat) ^ (8 * j) = 256 ^ j := by rw [Nat.pow_mul]
  simp [laneByte, BitVec.extractLsb'_toNat, Nat.shiftRight_eq_div_pow, this]

/-- Byte `j` of lane `k` is `B[8*k + j]` (20_memory.md R31). -/
theorem laneByte_lane (m : Memory) (k : Nat) {j : Nat} (h : j < 8) : laneByte (m.lane k) j = m.read (8 * k + j) := by
  apply BitVec.eq_of_toNat_eq
  rw [laneByte_toNat, lane_toNat, memRead_byte m h]

theorem lanesByte_lanes (m : Memory) {a : Nat} (h : a < 200) : lanesByte m.lanes a = m.read a := by
  have h' : a / 8 < 25 := by omega
  simp only [lanesByte, Memory.lanes, Vector.getElem?_ofFn, h', dif_pos, Option.getD_some]
  rw [laneByte_lane m _ (Nat.mod_lt _ (by omega))]
  congr 1; omega

theorem wf_ofLanes (L : Lanes) : (Memory.ofLanes L).wf := wf_ofBytes _

theorem read_ofLanes (L : Lanes) {a : Nat} (h : a < 200) : (Memory.ofLanes L).read a = lanesByte L a :=
  read_ofBytes _ h

/-- A lane is fixed by its eight bytes. -/
theorem lane_ext {l l' : Lane} (h : ∀ j < 8, laneByte l j = laneByte l' j) : l = l' := by
  apply BitVec.eq_of_getLsbD_eq
  intro i hi
  have := congrArg (fun b => b.getLsbD (i % 8)) (h (i / 8) (by omega))
  simpa [laneByte, BitVec.getLsbD_extractLsb', Nat.mod_lt i (by omega : 8 > 0), Nat.div_add_mod] using this

/-- The buffer that holds the lanes of a buffer is that buffer. -/
theorem ofLanes_lanes {m : Memory} (hm : m.wf) : Memory.ofLanes m.lanes = m := by
  refine memory_ext (wf_ofLanes _) hm fun a => ?_
  by_cases h : a < 200
  · rw [read_ofLanes _ h, lanesByte_lanes m h]
  · rw [read_of_ge (wf_ofLanes _) (by omega), read_of_ge hm (by omega)]

end Sys2Proof.Laws
end

