-- ==== Sys2Proof/Laws/State.lean ====
section
/-! SUPPORT. One lemma per field per update of the state, so that no proof unfolds a record update. -/

namespace Sys2Proof.Laws

open Sys2Proof.Machine

variable (s : State)


/-! `State.setMem` -/

@[simp] theorem setMem_mem (m : Memory) : (s.setMem m).mem = m := rfl
@[simp] theorem setMem_rate (m : Memory) : (s.setMem m).rate = s.rate := rfl
@[simp] theorem setMem_delimiter (m : Memory) : (s.setMem m).delimiter = s.delimiter := rfl
@[simp] theorem setMem_offset (m : Memory) : (s.setMem m).offset = s.offset := rfl
@[simp] theorem setMem_phase (m : Memory) : (s.setMem m).phase = s.phase := rfl
@[simp] theorem setMem_fault (m : Memory) : (s.setMem m).fault = s.fault := rfl
@[simp] theorem setMem_cause (m : Memory) : (s.setMem m).cause = s.cause := rfl
@[simp] theorem setMem_cnt (m : Memory) : (s.setMem m).cnt = s.cnt := rfl
@[simp] theorem setMem_rst (m : Memory) : (s.setMem m).rst = s.rst := rfl
@[simp] theorem setMem_cmd (m : Memory) : (s.setMem m).cmd = s.cmd := rfl
@[simp] theorem setMem_din (m : Memory) : (s.setMem m).din = s.din := rfl
@[simp] theorem setMem_dout (m : Memory) : (s.setMem m).dout = s.dout := rfl
@[simp] theorem setMem_perm (m : Memory) : (s.setMem m).perm = s.perm := rfl
@[simp] theorem setMem_accepted (m : Memory) : (s.setMem m).accepted = s.accepted := rfl
@[simp] theorem setMem_dinTaken (m : Memory) : (s.setMem m).dinTaken = s.dinTaken := rfl
@[simp] theorem setMem_doutTaken (m : Memory) : (s.setMem m).doutTaken = s.doutTaken := rfl

/-! `State.setRate` -/

@[simp] theorem setRate_mem (r : Byte) : (s.setRate r).mem = s.mem := rfl
@[simp] theorem setRate_rate (r : Byte) : (s.setRate r).rate = r := rfl
@[simp] theorem setRate_delimiter (r : Byte) : (s.setRate r).delimiter = s.delimiter := rfl
@[simp] theorem setRate_offset (r : Byte) : (s.setRate r).offset = s.offset := rfl
@[simp] theorem setRate_phase (r : Byte) : (s.setRate r).phase = s.phase := rfl
@[simp] theorem setRate_fault (r : Byte) : (s.setRate r).fault = s.fault := rfl
@[simp] theorem setRate_cause (r : Byte) : (s.setRate r).cause = s.cause := rfl
@[simp] theorem setRate_cnt (r : Byte) : (s.setRate r).cnt = s.cnt := rfl
@[simp] theorem setRate_rst (r : Byte) : (s.setRate r).rst = s.rst := rfl
@[simp] theorem setRate_cmd (r : Byte) : (s.setRate r).cmd = s.cmd := rfl
@[simp] theorem setRate_din (r : Byte) : (s.setRate r).din = s.din := rfl
@[simp] theorem setRate_dout (r : Byte) : (s.setRate r).dout = s.dout := rfl
@[simp] theorem setRate_perm (r : Byte) : (s.setRate r).perm = s.perm := rfl
@[simp] theorem setRate_accepted (r : Byte) : (s.setRate r).accepted = s.accepted := rfl
@[simp] theorem setRate_dinTaken (r : Byte) : (s.setRate r).dinTaken = s.dinTaken := rfl
@[simp] theorem setRate_doutTaken (r : Byte) : (s.setRate r).doutTaken = s.doutTaken := rfl

/-! `State.setDelimiter` -/

@[simp] theorem setDelimiter_mem (d : Byte) : (s.setDelimiter d).mem = s.mem := rfl
@[simp] theorem setDelimiter_rate (d : Byte) : (s.setDelimiter d).rate = s.rate := rfl
@[simp] theorem setDelimiter_delimiter (d : Byte) : (s.setDelimiter d).delimiter = d := rfl
@[simp] theorem setDelimiter_offset (d : Byte) : (s.setDelimiter d).offset = s.offset := rfl
@[simp] theorem setDelimiter_phase (d : Byte) : (s.setDelimiter d).phase = s.phase := rfl
@[simp] theorem setDelimiter_fault (d : Byte) : (s.setDelimiter d).fault = s.fault := rfl
@[simp] theorem setDelimiter_cause (d : Byte) : (s.setDelimiter d).cause = s.cause := rfl
@[simp] theorem setDelimiter_cnt (d : Byte) : (s.setDelimiter d).cnt = s.cnt := rfl
@[simp] theorem setDelimiter_rst (d : Byte) : (s.setDelimiter d).rst = s.rst := rfl
@[simp] theorem setDelimiter_cmd (d : Byte) : (s.setDelimiter d).cmd = s.cmd := rfl
@[simp] theorem setDelimiter_din (d : Byte) : (s.setDelimiter d).din = s.din := rfl
@[simp] theorem setDelimiter_dout (d : Byte) : (s.setDelimiter d).dout = s.dout := rfl
@[simp] theorem setDelimiter_perm (d : Byte) : (s.setDelimiter d).perm = s.perm := rfl
@[simp] theorem setDelimiter_accepted (d : Byte) : (s.setDelimiter d).accepted = s.accepted := rfl
@[simp] theorem setDelimiter_dinTaken (d : Byte) : (s.setDelimiter d).dinTaken = s.dinTaken := rfl
@[simp] theorem setDelimiter_doutTaken (d : Byte) : (s.setDelimiter d).doutTaken = s.doutTaken := rfl

/-! `State.setOffset` -/

@[simp] theorem setOffset_mem (o : Byte) : (s.setOffset o).mem = s.mem := rfl
@[simp] theorem setOffset_rate (o : Byte) : (s.setOffset o).rate = s.rate := rfl
@[simp] theorem setOffset_delimiter (o : Byte) : (s.setOffset o).delimiter = s.delimiter := rfl
@[simp] theorem setOffset_offset (o : Byte) : (s.setOffset o).offset = o := rfl
@[simp] theorem setOffset_phase (o : Byte) : (s.setOffset o).phase = s.phase := rfl
@[simp] theorem setOffset_fault (o : Byte) : (s.setOffset o).fault = s.fault := rfl
@[simp] theorem setOffset_cause (o : Byte) : (s.setOffset o).cause = s.cause := rfl
@[simp] theorem setOffset_cnt (o : Byte) : (s.setOffset o).cnt = s.cnt := rfl
@[simp] theorem setOffset_rst (o : Byte) : (s.setOffset o).rst = s.rst := rfl
@[simp] theorem setOffset_cmd (o : Byte) : (s.setOffset o).cmd = s.cmd := rfl
@[simp] theorem setOffset_din (o : Byte) : (s.setOffset o).din = s.din := rfl
@[simp] theorem setOffset_dout (o : Byte) : (s.setOffset o).dout = s.dout := rfl
@[simp] theorem setOffset_perm (o : Byte) : (s.setOffset o).perm = s.perm := rfl
@[simp] theorem setOffset_accepted (o : Byte) : (s.setOffset o).accepted = s.accepted := rfl
@[simp] theorem setOffset_dinTaken (o : Byte) : (s.setOffset o).dinTaken = s.dinTaken := rfl
@[simp] theorem setOffset_doutTaken (o : Byte) : (s.setOffset o).doutTaken = s.doutTaken := rfl

/-! `State.setPhase` -/

@[simp] theorem setPhase_mem (p : Phase) : (s.setPhase p).mem = s.mem := rfl
@[simp] theorem setPhase_rate (p : Phase) : (s.setPhase p).rate = s.rate := rfl
@[simp] theorem setPhase_delimiter (p : Phase) : (s.setPhase p).delimiter = s.delimiter := rfl
@[simp] theorem setPhase_offset (p : Phase) : (s.setPhase p).offset = s.offset := rfl
@[simp] theorem setPhase_phase (p : Phase) : (s.setPhase p).phase = p := rfl
@[simp] theorem setPhase_fault (p : Phase) : (s.setPhase p).fault = s.fault := rfl
@[simp] theorem setPhase_cause (p : Phase) : (s.setPhase p).cause = s.cause := rfl
@[simp] theorem setPhase_cnt (p : Phase) : (s.setPhase p).cnt = s.cnt := rfl
@[simp] theorem setPhase_rst (p : Phase) : (s.setPhase p).rst = s.rst := rfl
@[simp] theorem setPhase_cmd (p : Phase) : (s.setPhase p).cmd = s.cmd := rfl
@[simp] theorem setPhase_din (p : Phase) : (s.setPhase p).din = s.din := rfl
@[simp] theorem setPhase_dout (p : Phase) : (s.setPhase p).dout = s.dout := rfl
@[simp] theorem setPhase_perm (p : Phase) : (s.setPhase p).perm = s.perm := rfl
@[simp] theorem setPhase_accepted (p : Phase) : (s.setPhase p).accepted = s.accepted := rfl
@[simp] theorem setPhase_dinTaken (p : Phase) : (s.setPhase p).dinTaken = s.dinTaken := rfl
@[simp] theorem setPhase_doutTaken (p : Phase) : (s.setPhase p).doutTaken = s.doutTaken := rfl

/-! `State.setCnt` -/

@[simp] theorem setCnt_mem (c : Len) : (s.setCnt c).mem = s.mem := rfl
@[simp] theorem setCnt_rate (c : Len) : (s.setCnt c).rate = s.rate := rfl
@[simp] theorem setCnt_delimiter (c : Len) : (s.setCnt c).delimiter = s.delimiter := rfl
@[simp] theorem setCnt_offset (c : Len) : (s.setCnt c).offset = s.offset := rfl
@[simp] theorem setCnt_phase (c : Len) : (s.setCnt c).phase = s.phase := rfl
@[simp] theorem setCnt_fault (c : Len) : (s.setCnt c).fault = s.fault := rfl
@[simp] theorem setCnt_cause (c : Len) : (s.setCnt c).cause = s.cause := rfl
@[simp] theorem setCnt_cnt (c : Len) : (s.setCnt c).cnt = c := rfl
@[simp] theorem setCnt_rst (c : Len) : (s.setCnt c).rst = s.rst := rfl
@[simp] theorem setCnt_cmd (c : Len) : (s.setCnt c).cmd = s.cmd := rfl
@[simp] theorem setCnt_din (c : Len) : (s.setCnt c).din = s.din := rfl
@[simp] theorem setCnt_dout (c : Len) : (s.setCnt c).dout = s.dout := rfl
@[simp] theorem setCnt_perm (c : Len) : (s.setCnt c).perm = s.perm := rfl
@[simp] theorem setCnt_accepted (c : Len) : (s.setCnt c).accepted = s.accepted := rfl
@[simp] theorem setCnt_dinTaken (c : Len) : (s.setCnt c).dinTaken = s.dinTaken := rfl
@[simp] theorem setCnt_doutTaken (c : Len) : (s.setCnt c).doutTaken = s.doutTaken := rfl

/-! `State.takeCmd` -/

@[simp] theorem takeCmd_mem : s.takeCmd.mem = s.mem := rfl
@[simp] theorem takeCmd_rate : s.takeCmd.rate = s.rate := rfl
@[simp] theorem takeCmd_delimiter : s.takeCmd.delimiter = s.delimiter := rfl
@[simp] theorem takeCmd_offset : s.takeCmd.offset = s.offset := rfl
@[simp] theorem takeCmd_phase : s.takeCmd.phase = s.phase := rfl
@[simp] theorem takeCmd_fault : s.takeCmd.fault = s.fault := rfl
@[simp] theorem takeCmd_cause : s.takeCmd.cause = s.cause := rfl
@[simp] theorem takeCmd_cnt : s.takeCmd.cnt = s.cnt := rfl
@[simp] theorem takeCmd_rst : s.takeCmd.rst = s.rst := rfl
@[simp] theorem takeCmd_cmd : s.takeCmd.cmd = s.cmd.tail := rfl
@[simp] theorem takeCmd_din : s.takeCmd.din = s.din := rfl
@[simp] theorem takeCmd_dout : s.takeCmd.dout = s.dout := rfl
@[simp] theorem takeCmd_perm : s.takeCmd.perm = s.perm := rfl
@[simp] theorem takeCmd_accepted : s.takeCmd.accepted = s.accepted := rfl
@[simp] theorem takeCmd_dinTaken : s.takeCmd.dinTaken = s.dinTaken := rfl
@[simp] theorem takeCmd_doutTaken : s.takeCmd.doutTaken = s.doutTaken := rfl

/-! `State.accept` -/

@[simp] theorem accept_mem (i : Instr) : (s.accept i).mem = s.mem := rfl
@[simp] theorem accept_rate (i : Instr) : (s.accept i).rate = s.rate := rfl
@[simp] theorem accept_delimiter (i : Instr) : (s.accept i).delimiter = s.delimiter := rfl
@[simp] theorem accept_offset (i : Instr) : (s.accept i).offset = s.offset := rfl
@[simp] theorem accept_phase (i : Instr) : (s.accept i).phase = s.phase := rfl
@[simp] theorem accept_fault (i : Instr) : (s.accept i).fault = s.fault := rfl
@[simp] theorem accept_cause (i : Instr) : (s.accept i).cause = s.cause := rfl
@[simp] theorem accept_cnt (i : Instr) : (s.accept i).cnt = s.cnt := rfl
@[simp] theorem accept_rst (i : Instr) : (s.accept i).rst = s.rst := rfl
@[simp] theorem accept_cmd (i : Instr) : (s.accept i).cmd = s.cmd.tail := rfl
@[simp] theorem accept_din (i : Instr) : (s.accept i).din = s.din := rfl
@[simp] theorem accept_dout (i : Instr) : (s.accept i).dout = s.dout := rfl
@[simp] theorem accept_perm (i : Instr) : (s.accept i).perm = s.perm := rfl
@[simp] theorem accept_accepted (i : Instr) : (s.accept i).accepted = s.accepted ++ [i] := rfl
@[simp] theorem accept_dinTaken (i : Instr) : (s.accept i).dinTaken = s.dinTaken := rfl
@[simp] theorem accept_doutTaken (i : Instr) : (s.accept i).doutTaken = s.doutTaken := rfl

/-! `State.dinTake` -/

@[simp] theorem dinTake_mem (n : Nat) : (s.dinTake n).mem = s.mem := rfl
@[simp] theorem dinTake_rate (n : Nat) : (s.dinTake n).rate = s.rate := rfl
@[simp] theorem dinTake_delimiter (n : Nat) : (s.dinTake n).delimiter = s.delimiter := rfl
@[simp] theorem dinTake_offset (n : Nat) : (s.dinTake n).offset = s.offset := rfl
@[simp] theorem dinTake_phase (n : Nat) : (s.dinTake n).phase = s.phase := rfl
@[simp] theorem dinTake_fault (n : Nat) : (s.dinTake n).fault = s.fault := rfl
@[simp] theorem dinTake_cause (n : Nat) : (s.dinTake n).cause = s.cause := rfl
@[simp] theorem dinTake_cnt (n : Nat) : (s.dinTake n).cnt = s.cnt := rfl
@[simp] theorem dinTake_rst (n : Nat) : (s.dinTake n).rst = s.rst := rfl
@[simp] theorem dinTake_cmd (n : Nat) : (s.dinTake n).cmd = s.cmd := rfl
@[simp] theorem dinTake_din (n : Nat) : (s.dinTake n).din = s.din.drop n := rfl
@[simp] theorem dinTake_dout (n : Nat) : (s.dinTake n).dout = s.dout := rfl
@[simp] theorem dinTake_perm (n : Nat) : (s.dinTake n).perm = s.perm := rfl
@[simp] theorem dinTake_accepted (n : Nat) : (s.dinTake n).accepted = s.accepted := rfl
@[simp] theorem dinTake_dinTaken (n : Nat) : (s.dinTake n).dinTaken = s.dinTaken ++ s.din.take n := rfl
@[simp] theorem dinTake_doutTaken (n : Nat) : (s.dinTake n).doutTaken = s.doutTaken := rfl

/-! `State.doutPut` -/

@[simp] theorem doutPut_mem (bs : List Byte) : (s.doutPut bs).mem = s.mem := rfl
@[simp] theorem doutPut_rate (bs : List Byte) : (s.doutPut bs).rate = s.rate := rfl
@[simp] theorem doutPut_delimiter (bs : List Byte) : (s.doutPut bs).delimiter = s.delimiter := rfl
@[simp] theorem doutPut_offset (bs : List Byte) : (s.doutPut bs).offset = s.offset := rfl
@[simp] theorem doutPut_phase (bs : List Byte) : (s.doutPut bs).phase = s.phase := rfl
@[simp] theorem doutPut_fault (bs : List Byte) : (s.doutPut bs).fault = s.fault := rfl
@[simp] theorem doutPut_cause (bs : List Byte) : (s.doutPut bs).cause = s.cause := rfl
@[simp] theorem doutPut_cnt (bs : List Byte) : (s.doutPut bs).cnt = s.cnt := rfl
@[simp] theorem doutPut_rst (bs : List Byte) : (s.doutPut bs).rst = s.rst := rfl
@[simp] theorem doutPut_cmd (bs : List Byte) : (s.doutPut bs).cmd = s.cmd := rfl
@[simp] theorem doutPut_din (bs : List Byte) : (s.doutPut bs).din = s.din := rfl
@[simp] theorem doutPut_dout (bs : List Byte) : (s.doutPut bs).dout = s.dout ++ bs := rfl
@[simp] theorem doutPut_perm (bs : List Byte) : (s.doutPut bs).perm = s.perm := rfl
@[simp] theorem doutPut_accepted (bs : List Byte) : (s.doutPut bs).accepted = s.accepted := rfl
@[simp] theorem doutPut_dinTaken (bs : List Byte) : (s.doutPut bs).dinTaken = s.dinTaken := rfl
@[simp] theorem doutPut_doutTaken (bs : List Byte) : (s.doutPut bs).doutTaken = s.doutTaken := rfl

/-! `State.permute` -/

@[simp] theorem permute_mem (P : Lanes → Lanes) : (s.permute P).mem = Memory.ofLanes (P s.mem.lanes) := rfl
@[simp] theorem permute_rate (P : Lanes → Lanes) : (s.permute P).rate = s.rate := rfl
@[simp] theorem permute_delimiter (P : Lanes → Lanes) : (s.permute P).delimiter = s.delimiter := rfl
@[simp] theorem permute_offset (P : Lanes → Lanes) : (s.permute P).offset = s.offset := rfl
@[simp] theorem permute_phase (P : Lanes → Lanes) : (s.permute P).phase = s.phase := rfl
@[simp] theorem permute_fault (P : Lanes → Lanes) : (s.permute P).fault = s.fault := rfl
@[simp] theorem permute_cause (P : Lanes → Lanes) : (s.permute P).cause = s.cause := rfl
@[simp] theorem permute_cnt (P : Lanes → Lanes) : (s.permute P).cnt = s.cnt := rfl
@[simp] theorem permute_rst (P : Lanes → Lanes) : (s.permute P).rst = s.rst := rfl
@[simp] theorem permute_cmd (P : Lanes → Lanes) : (s.permute P).cmd = s.cmd := rfl
@[simp] theorem permute_din (P : Lanes → Lanes) : (s.permute P).din = s.din := rfl
@[simp] theorem permute_dout (P : Lanes → Lanes) : (s.permute P).dout = s.dout := rfl
@[simp] theorem permute_perm (P : Lanes → Lanes) : (s.permute P).perm = s.perm ++ [s.mem.lanes] := rfl
@[simp] theorem permute_accepted (P : Lanes → Lanes) : (s.permute P).accepted = s.accepted := rfl
@[simp] theorem permute_dinTaken (P : Lanes → Lanes) : (s.permute P).dinTaken = s.dinTaken := rfl
@[simp] theorem permute_doutTaken (P : Lanes → Lanes) : (s.permute P).doutTaken = s.doutTaken := rfl

/-! `State.raise` -/

@[simp] theorem raise_mem (c : Cause) : (s.raise c).mem = s.mem := rfl
@[simp] theorem raise_rate (c : Cause) : (s.raise c).rate = s.rate := rfl
@[simp] theorem raise_delimiter (c : Cause) : (s.raise c).delimiter = s.delimiter := rfl
@[simp] theorem raise_offset (c : Cause) : (s.raise c).offset = s.offset := rfl
@[simp] theorem raise_phase (c : Cause) : (s.raise c).phase = s.phase := rfl
@[simp] theorem raise_fault (c : Cause) : (s.raise c).fault = true := rfl
@[simp] theorem raise_cause (c : Cause) : (s.raise c).cause = c := rfl
@[simp] theorem raise_cnt (c : Cause) : (s.raise c).cnt = s.cnt := rfl
@[simp] theorem raise_rst (c : Cause) : (s.raise c).rst = s.rst := rfl
@[simp] theorem raise_cmd (c : Cause) : (s.raise c).cmd = s.cmd := rfl
@[simp] theorem raise_din (c : Cause) : (s.raise c).din = s.din := rfl
@[simp] theorem raise_dout (c : Cause) : (s.raise c).dout = s.dout := rfl
@[simp] theorem raise_perm (c : Cause) : (s.raise c).perm = s.perm := rfl
@[simp] theorem raise_accepted (c : Cause) : (s.raise c).accepted = s.accepted := rfl
@[simp] theorem raise_dinTaken (c : Cause) : (s.raise c).dinTaken = s.dinTaken := rfl
@[simp] theorem raise_doutTaken (c : Cause) : (s.raise c).doutTaken = s.doutTaken := rfl

/-! `State.construct` -/

@[simp] theorem construct_mem (r d : Byte) : (s.construct r d).mem = Memory.zeroed := rfl
@[simp] theorem construct_rate (r d : Byte) : (s.construct r d).rate = r := rfl
@[simp] theorem construct_delimiter (r d : Byte) : (s.construct r d).delimiter = d := rfl
@[simp] theorem construct_offset (r d : Byte) : (s.construct r d).offset = 0#8 := rfl
@[simp] theorem construct_phase (r d : Byte) : (s.construct r d).phase = .absorbing := rfl
@[simp] theorem construct_fault (r d : Byte) : (s.construct r d).fault = s.fault := rfl
@[simp] theorem construct_cause (r d : Byte) : (s.construct r d).cause = s.cause := rfl
@[simp] theorem construct_cnt (r d : Byte) : (s.construct r d).cnt = s.cnt := rfl
@[simp] theorem construct_rst (r d : Byte) : (s.construct r d).rst = s.rst := rfl
@[simp] theorem construct_cmd (r d : Byte) : (s.construct r d).cmd = s.cmd := rfl
@[simp] theorem construct_din (r d : Byte) : (s.construct r d).din = s.din := rfl
@[simp] theorem construct_dout (r d : Byte) : (s.construct r d).dout = s.dout := rfl
@[simp] theorem construct_perm (r d : Byte) : (s.construct r d).perm = s.perm := rfl
@[simp] theorem construct_accepted (r d : Byte) : (s.construct r d).accepted = s.accepted := rfl
@[simp] theorem construct_dinTaken (r d : Byte) : (s.construct r d).dinTaken = s.dinTaken := rfl
@[simp] theorem construct_doutTaken (r d : Byte) : (s.construct r d).doutTaken = s.doutTaken := rfl

/-! `State.pushCmd` -/

@[simp] theorem pushCmd_mem (w : Word) : (s.pushCmd w).mem = s.mem := rfl
@[simp] theorem pushCmd_rate (w : Word) : (s.pushCmd w).rate = s.rate := rfl
@[simp] theorem pushCmd_delimiter (w : Word) : (s.pushCmd w).delimiter = s.delimiter := rfl
@[simp] theorem pushCmd_offset (w : Word) : (s.pushCmd w).offset = s.offset := rfl
@[simp] theorem pushCmd_phase (w : Word) : (s.pushCmd w).phase = s.phase := rfl
@[simp] theorem pushCmd_fault (w : Word) : (s.pushCmd w).fault = s.fault := rfl
@[simp] theorem pushCmd_cause (w : Word) : (s.pushCmd w).cause = s.cause := rfl
@[simp] theorem pushCmd_cnt (w : Word) : (s.pushCmd w).cnt = s.cnt := rfl
@[simp] theorem pushCmd_rst (w : Word) : (s.pushCmd w).rst = s.rst := rfl
@[simp] theorem pushCmd_cmd (w : Word) : (s.pushCmd w).cmd = w :: s.cmd := rfl
@[simp] theorem pushCmd_din (w : Word) : (s.pushCmd w).din = s.din := rfl
@[simp] theorem pushCmd_dout (w : Word) : (s.pushCmd w).dout = s.dout := rfl
@[simp] theorem pushCmd_perm (w : Word) : (s.pushCmd w).perm = s.perm := rfl
@[simp] theorem pushCmd_accepted (w : Word) : (s.pushCmd w).accepted = s.accepted := rfl
@[simp] theorem pushCmd_dinTaken (w : Word) : (s.pushCmd w).dinTaken = s.dinTaken := rfl
@[simp] theorem pushCmd_doutTaken (w : Word) : (s.pushCmd w).doutTaken = s.doutTaken := rfl

/-! The values after reset (10_state.md R24). -/

@[simp] theorem reset_mem : State.reset.mem = Memory.zeroed := rfl
@[simp] theorem reset_rate : State.reset.rate = 0#8 := rfl
@[simp] theorem reset_delimiter : State.reset.delimiter = 0#8 := rfl
@[simp] theorem reset_offset : State.reset.offset = 0#8 := rfl
@[simp] theorem reset_phase : State.reset.phase = .idle := rfl
@[simp] theorem reset_fault : State.reset.fault = false := rfl
@[simp] theorem reset_cause : State.reset.cause = .none := rfl
@[simp] theorem reset_cnt : State.reset.cnt = 0#24 := rfl
@[simp] theorem reset_rst : State.reset.rst = false := rfl
@[simp] theorem reset_cmd : State.reset.cmd = [] := rfl
@[simp] theorem reset_din : State.reset.din = [] := rfl
@[simp] theorem reset_dout : State.reset.dout = [] := rfl
@[simp] theorem reset_perm : State.reset.perm = [] := rfl
@[simp] theorem reset_accepted : State.reset.accepted = [] := rfl
@[simp] theorem reset_dinTaken : State.reset.dinTaken = [] := rfl
@[simp] theorem reset_doutTaken : State.reset.doutTaken = [] := rfl

@[simp] theorem applyReset_eq : s.applyReset = State.reset := rfl

end Sys2Proof.Laws
end

