-- ==== Sys2Proof/Laws/Absorb.lean ====
section
/-! SUPPORT. What ABSORB's loop does, said once: it is the byte-serial form (41_absorb.md R85), and what that form does
to each register, the trace and the buffer. -/

namespace Sys2Proof.Laws

open Sys2Proof.Machine

variable {P : Lanes → Lanes} {s : State}

/-! ### The cursor -/

theorem offset_add_toNat {o : Byte} {n : Nat} (h : o.toNat + n < 256) :
    (o + BitVec.ofNat 8 n).toNat = o.toNat + n := by
  simp only [BitVec.toNat_add, BitVec.toNat_ofNat]; omega

/-- `permuteIfFull` in one equation over the cursor as a number. -/
theorem permuteIfFull_eq (P : Lanes → Lanes) (s : State) :
    s.permuteIfFull P = if s.offset.toNat = s.rate.toNat then (s.permute P).setOffset 0#8 else s := by
  simp only [State.permuteIfFull, BitVec.toNat_inj]

theorem permuteIfFull_of_lt (h : s.offset.toNat < s.rate.toNat) : s.permuteIfFull P = s := by
  rw [permuteIfFull_eq, if_neg (by omega)]

/-! What `permuteIfFull` leaves alone. -/

@[simp] theorem permuteIfFull_rate : (s.permuteIfFull P).rate = s.rate := by
  simp only [State.permuteIfFull]; split <;> rfl
@[simp] theorem permuteIfFull_delimiter : (s.permuteIfFull P).delimiter = s.delimiter := by
  simp only [State.permuteIfFull]; split <;> rfl
@[simp] theorem permuteIfFull_phase : (s.permuteIfFull P).phase = s.phase := by
  simp only [State.permuteIfFull]; split <;> rfl
@[simp] theorem permuteIfFull_fault : (s.permuteIfFull P).fault = s.fault := by
  simp only [State.permuteIfFull]; split <;> rfl
@[simp] theorem permuteIfFull_cause : (s.permuteIfFull P).cause = s.cause := by
  simp only [State.permuteIfFull]; split <;> rfl
@[simp] theorem permuteIfFull_cnt : (s.permuteIfFull P).cnt = s.cnt := by
  simp only [State.permuteIfFull]; split <;> rfl
@[simp] theorem permuteIfFull_rst : (s.permuteIfFull P).rst = s.rst := by
  simp only [State.permuteIfFull]; split <;> rfl
@[simp] theorem permuteIfFull_cmd : (s.permuteIfFull P).cmd = s.cmd := by
  simp only [State.permuteIfFull]; split <;> rfl
@[simp] theorem permuteIfFull_din : (s.permuteIfFull P).din = s.din := by
  simp only [State.permuteIfFull]; split <;> rfl
@[simp] theorem permuteIfFull_dout : (s.permuteIfFull P).dout = s.dout := by
  simp only [State.permuteIfFull]; split <;> rfl
@[simp] theorem permuteIfFull_accepted : (s.permuteIfFull P).accepted = s.accepted := by
  simp only [State.permuteIfFull]; split <;> rfl
@[simp] theorem permuteIfFull_dinTaken : (s.permuteIfFull P).dinTaken = s.dinTaken := by
  simp only [State.permuteIfFull]; split <;> rfl
@[simp] theorem permuteIfFull_doutTaken : (s.permuteIfFull P).doutTaken = s.doutTaken := by
  simp only [State.permuteIfFull]; split <;> rfl

theorem permuteIfFull_cursor (h1 : rateAccepted s.rate) (h2 : s.offset.toNat ≤ s.rate.toNat) :
    (s.permuteIfFull P).cursorInBlock := by
  rw [permuteIfFull_eq]
  split
  · exact ⟨h1, h1.1⟩
  · exact ⟨h1, by omega⟩

theorem wf_permuteIfFull (h : s.mem.wf) : (s.permuteIfFull P).mem.wf := by
  simp only [State.permuteIfFull]
  split
  · exact wf_ofLanes _
  · exact h

/-! ### One byte -/

/-- The buffer and cursor one absorbed byte leaves, before the test for a full block. -/
theorem absorbByte_cursor (h : s.cursorInBlock) (b : Byte) : (s.absorbByte P b).cursorInBlock := by
  obtain ⟨⟨h1, h2⟩, h3⟩ := h
  refine permuteIfFull_cursor ⟨h1, h2⟩ ?_
  have : (s.offset + 1#8).toNat = s.offset.toNat + 1 := offset_add_toNat (n := 1) (by omega)
  simp only [setOffset_offset, setOffset_rate, setMem_rate]
  omega

theorem wf_absorbByte (hm : s.mem.wf) (h : s.cursorInBlock) (b : Byte) : (s.absorbByte P b).mem.wf :=
  wf_permuteIfFull (wf_xorByte hm (by have := h.1.2; have := h.2; omega) b)

/-! ### A string of bytes -/

@[simp] theorem absorbSerial_nil : absorbSerial P [] s = s := rfl

@[simp] theorem absorbSerial_cons (b : Byte) (bs : List Byte) :
    absorbSerial P (b :: bs) s = absorbSerial P bs (s.absorbByte P b) := rfl

/-- Absorbing two strings one after the other is absorbing their concatenation (41_absorb.md R84). -/
theorem absorbSerial_append (as bs : List Byte) :
    absorbSerial P (as ++ bs) s = absorbSerial P bs (absorbSerial P as s) := by
  simp [absorbSerial, List.foldl_append]

/-- All that absorbing a string may change: the buffer, the cursor and the trace; the rest is as before. -/
theorem absorbSerial_frame (bs : List Byte) (s : State) :
    absorbSerial P bs s =
      { s with
        mem := (absorbSerial P bs s).mem
        offset := (absorbSerial P bs s).offset
        perm := (absorbSerial P bs s).perm } := by
  induction bs generalizing s with
  | nil => rfl
  | cons b bs ih =>
    rw [absorbSerial_cons, ih]
    simp only [State.absorbByte]
    ext1 <;> simp

theorem absorbSerial_cursor (h : s.cursorInBlock) (bs : List Byte) : (absorbSerial P bs s).cursorInBlock := by
  induction bs generalizing s with
  | nil => exact h
  | cons b bs ih => exact ih (absorbByte_cursor h b)

theorem wf_absorbSerial (hm : s.mem.wf) (h : s.cursorInBlock) (bs : List Byte) : (absorbSerial P bs s).mem.wf := by
  induction bs generalizing s with
  | nil => exact hm
  | cons b bs ih => exact ih (wf_absorbByte hm h b) (absorbByte_cursor h b)

/-- Bytes that stay inside the block: one chunk, then the test for a full block (41_absorb.md R80). -/
theorem absorbSerial_chunk {bs : List Byte} (h0 : bs ≠ []) (h : s.cursorInBlock)
    (hle : s.offset.toNat + bs.length ≤ s.rate.toNat) :
    absorbSerial P bs s =
      ((s.setMem (s.mem.xorBytes s.offset.toNat bs)).setOffset
        (s.offset + BitVec.ofNat 8 bs.length)).permuteIfFull P := by
  have hr := h.1.2
  induction bs generalizing s with
  | nil => exact absurd rfl h0
  | cons b bs ih =>
    rw [absorbSerial_cons]
    simp only [List.length_cons] at hle
    by_cases hbs : bs = []
    · subst hbs; simp [State.absorbByte]
    · have hpos : 0 < bs.length := List.length_pos_of_ne_nil hbs
      have h1 : (s.offset + 1#8).toNat = s.offset.toNat + 1 := offset_add_toNat (n := 1) (by omega)
      have hb : s.absorbByte P b = (s.setMem (s.mem.xorByte s.offset.toNat b)).setOffset (s.offset + 1#8) := by
        refine permuteIfFull_of_lt ?_
        simp only [setOffset_offset, setOffset_rate, setMem_rate]
        omega
      rw [ih hbs (absorbByte_cursor h b)]
      · rw [hb]
        simp only [setOffset_offset, setOffset_mem, setMem_mem, h1, xorBytes_cons, List.length_cons]
        have h2 : s.offset + 1#8 + BitVec.ofNat 8 bs.length = s.offset + BitVec.ofNat 8 (bs.length + 1) := by
          apply BitVec.eq_of_toNat_eq
          simp only [BitVec.toNat_add, BitVec.toNat_ofNat]
          omega
        rw [h2]
        rfl
      · rw [hb]
        simp only [setOffset_offset, setOffset_rate, setMem_rate]
        omega
      · rw [hb]; exact hr

/-- Bytes that leave room in the block are XORed in, and that is all. -/
theorem absorbSerial_of_room {bs : List Byte} (h : s.cursorInBlock)
    (hlt : s.offset.toNat + bs.length < s.rate.toNat) :
    absorbSerial P bs s =
      (s.setMem (s.mem.xorBytes s.offset.toNat bs)).setOffset (s.offset + BitVec.ofNat 8 bs.length) := by
  have hr := h.1.2
  by_cases h0 : bs = []
  · subst h0
    ext1 <;> simp
  · rw [absorbSerial_chunk h0 h (by omega)]
    refine permuteIfFull_of_lt ?_
    simp only [setOffset_offset, setOffset_rate, setMem_rate]
    rw [offset_add_toNat (by omega)]
    omega

/-- The cursor and the number of permutations after a string (41_absorb.md R83). -/
theorem absorbSerial_counts (h : s.cursorInBlock) (bs : List Byte) :
    (absorbSerial P bs s).offset.toNat = (s.offset.toNat + bs.length) % s.rate.toNat ∧
    (absorbSerial P bs s).perm.length = s.perm.length + (s.offset.toNat + bs.length) / s.rate.toNat := by
  induction bs generalizing s with
  | nil =>
    have := h.2
    simp [Nat.mod_eq_of_lt this, Nat.div_eq_of_lt this]
  | cons b bs ih =>
    have hr := h.1.2
    have h0 := h.1.1
    have h3 := h.2
    have h1 : (s.offset + 1#8).toNat = s.offset.toNat + 1 := offset_add_toNat (n := 1) (by omega)
    rw [absorbSerial_cons, (ih (absorbByte_cursor h b)).1, (ih (absorbByte_cursor h b)).2, State.absorbByte,
      permuteIfFull_eq]
    simp only [setOffset_offset, setOffset_rate, setMem_rate, List.length_cons, h1]
    split
    · next hfull =>
      have e : s.offset.toNat + (bs.length + 1) = bs.length + s.rate.toNat := by omega
      simp only [setOffset_offset, setOffset_rate, setOffset_perm, permute_rate, permute_perm, setMem_rate,
        setMem_perm, List.length_append, List.length_singleton, BitVec.toNat_ofNat, Nat.zero_mod, Nat.zero_add]
      rw [e, Nat.add_mod_right, Nat.add_div_right _ (by omega)]
      exact ⟨rfl, by omega⟩
    · simp only [setOffset_offset, setOffset_rate, setOffset_perm, setMem_rate, setMem_perm, h1]
      rw [Nat.add_assoc, Nat.add_comm 1]
      exact ⟨rfl, rfl⟩

/-- The trace only grows. -/
theorem absorbSerial_perm_extends (bs : List Byte) (s : State) :
    ∃ l, (absorbSerial P bs s).perm = s.perm ++ l := by
  induction bs generalizing s with
  | nil => exact ⟨[], by simp⟩
  | cons b bs ih =>
    obtain ⟨l, hl⟩ := ih (s.absorbByte P b)
    rw [absorbSerial_cons, hl, State.absorbByte, State.permuteIfFull]
    split
    · exact ⟨_, by simp only [setOffset_perm, permute_perm, setMem_perm, List.append_assoc]; rfl⟩
    · exact ⟨l, by simp⟩

/-! ### The loop -/

@[simp] theorem dinTake_zero (s : State) : s.dinTake 0 = s := by ext1 <;> simp

theorem dinTake_dinTake (s : State) (m n : Nat) : (s.dinTake m).dinTake n = s.dinTake (m + n) := by
  ext1 <;> simp [List.take_add]

/-- Absorbing bytes does not look at `din` or `cnt`. -/
theorem absorbSerial_dinTake_setCnt (bs : List Byte) (n : Nat) (c : Len) (s : State) :
    absorbSerial P bs ((s.dinTake n).setCnt c) = ((absorbSerial P bs s).dinTake n).setCnt c := by
  induction bs generalizing s with
  | nil => rfl
  | cons b bs ih =>
    rw [absorbSerial_cons, absorbSerial_cons, ← ih]
    congr 1
    simp only [State.absorbByte, State.permuteIfFull]
    by_cases hf : s.offset + 1#8 = s.rate
    · rw [if_pos (by simpa using hf), if_pos (by simpa using hf)]; rfl
    · rw [if_neg (by simpa using hf), if_neg (by simpa using hf)]; rfl

theorem cnt_sub_toNat {c : Len} {n : Nat} (h : n ≤ c.toNat) : (c - BitVec.ofNat 24 n).toNat = c.toNat - n := by
  have := c.isLt
  simp only [BitVec.toNat_sub, BitVec.toNat_ofNat]
  omega

/-- One pass of the loop is the byte-serial form on its chunk. -/
theorem absorbPass_eq_serial (h : s.cursorInBlock) (hc : s.cnt ≠ 0#24) (hd : s.cnt.toNat ≤ s.din.length) :
    s.absorbOne.permuteIfFull P =
      ((absorbSerial P (s.din.take s.absorbChunk) s).dinTake s.absorbChunk).setCnt
        (s.cnt - BitVec.ofNat 24 s.absorbChunk) := by
  have hr := h.1.2
  have h3 := h.2
  have hc' : s.cnt.toNat ≠ 0 := fun e => hc (BitVec.eq_of_toNat_eq (by simpa using e))
  have hn : 1 ≤ s.absorbChunk ∧ s.absorbChunk ≤ s.cnt.toNat ∧ s.offset.toNat + s.absorbChunk ≤ s.rate.toNat := by
    simp only [State.absorbChunk]; omega
  have hlen : (s.din.take s.absorbChunk).length = s.absorbChunk := by simp; omega
  rw [← absorbSerial_dinTake_setCnt, absorbSerial_chunk]
  · rw [hlen]; rfl
  · intro e; rw [e] at hlen; simp at hlen; omega
  · exact h
  · rw [hlen]; exact hn.2.2

/-- ABSORB's loop, in one equation: with the cursor in its block and the payload on `din`, it absorbs the oldest `cnt`
bytes of `din` one by one, takes them, and ends with `cnt = 0` (41_absorb.md R80, R85). -/
theorem absorbLoop_eq_serial (fuel : Nat) (h : s.cursorInBlock) (hd : s.cnt.toNat ≤ s.din.length)
    (hf : s.cnt.toNat ≤ fuel) :
    absorbLoop P fuel s =
      ((absorbSerial P (s.din.take s.cnt.toNat) s).dinTake s.cnt.toNat).setCnt 0#24 := by
  induction fuel generalizing s with
  | zero =>
    have hc : s.cnt = 0#24 := BitVec.eq_of_toNat_eq (by simp; omega)
    rw [absorbLoop, hc]
    ext1 <;> simp [hc]
  | succ fuel ih =>
    rw [absorbLoop]
    split
    · next hc =>
      rw [hc]
      ext1 <;> simp [hc]
    · next hc =>
      have hr := h.1.2
      have h3 := h.2
      have hc' : s.cnt.toNat ≠ 0 := fun e => hc (BitVec.eq_of_toNat_eq (by simpa using e))
      have hn : 1 ≤ s.absorbChunk ∧ s.absorbChunk ≤ s.cnt.toNat := by simp only [State.absorbChunk]; omega
      have hcnt := cnt_sub_toNat hn.2
      have hcur := absorbSerial_cursor (P := P) h (s.din.take s.absorbChunk)
      have hdin : (absorbSerial P (s.din.take s.absorbChunk) s).din = s.din := by rw [absorbSerial_frame]
      rw [absorbPass_eq_serial h hc hd, ih]
      · simp only [setCnt_cnt, setCnt_din, dinTake_din, hcnt, hdin]
        rw [absorbSerial_dinTake_setCnt, ← absorbSerial_append]
        have e : s.din.take s.absorbChunk ++ (s.din.drop s.absorbChunk).take (s.cnt.toNat - s.absorbChunk) =
            s.din.take s.cnt.toNat := by
          rw [← List.take_add]; congr 1; omega
        rw [e]
        generalize absorbSerial P (s.din.take s.cnt.toNat) s = x
        rw [← (dinTake_dinTake x _ _).trans (congrArg x.dinTake (Nat.add_sub_of_le hn.2))]
        rfl
      · exact hcur
      · simp only [setCnt_cnt, setCnt_din, dinTake_din, hcnt, hdin, List.length_drop]; omega
      · simp only [setCnt_cnt, hcnt]; omega

end Sys2Proof.Laws
end

