-- ==== Sys2Proof/Laws/Finalize.lean ====
section
/-! SUPPORT. What FINALIZE's padding and squeeze do, said once: the padded buffer, and the squeeze loop as its
byte-serial form (42_finalize.md R91, R103). -/

namespace Sys2Proof.Laws

open Sys2Proof.Machine

variable {P : Lanes → Lanes} {s : State}

/-! ### Padding -/

theorem pad_eq (s : State) : s.pad = s.setMem s.pad.mem := rfl

theorem wf_pad (hm : s.mem.wf) (h : s.cursorInBlock) : s.pad.mem.wf := by
  have h1 := h.1; have h2 := h.2
  exact wf_xorByte (wf_xorByte hm (by simp only [State.delimiterAddr]; omega) _)
    (by simp only [State.lastPadAddr]; omega) _

/-- The two read-modify-writes of padding, read back: the delimiter at `offset`, 0x80 at `rate - 1`, both on one byte
when the two addresses meet, and no other byte (42_finalize.md R91, R92). -/
theorem read_pad (hm : s.mem.wf) (h : s.cursorInBlock) (a : Nat) :
    s.pad.mem.read a =
      (s.mem.read a ^^^ (if a = s.offset.toNat then s.delimiter else 0#8)) ^^^
        (if a = s.rate.toNat - 1 then 0x80#8 else 0#8) := by
  have h1 := h.1; have h2 := h.2
  have hw : (s.mem.xorByte s.delimiterAddr s.delimiter).wf :=
    wf_xorByte hm (by simp only [State.delimiterAddr]; omega) _
  simp only [State.pad, setMem_mem]
  rw [read_xorByte hw, read_xorByte hm, read_xorByte hm]
  simp only [State.delimiterAddr, State.lastPadAddr]
  by_cases ha : a = s.rate.toNat - 1
  · by_cases hb : a = s.offset.toNat
    · have e : s.rate.toNat - 1 = s.offset.toNat := by omega
      simp [ha, e]
    · have e : s.rate.toNat - 1 ≠ s.offset.toNat := by omega
      simp [ha, e]
  · by_cases hb : a = s.offset.toNat
    · subst hb; simp [ha]
    · simp [ha, hb]

/-! ### One byte of the squeeze -/

/-- A byte delivered from inside the block. -/
theorem squeezeByte_of_lt (h : s.offset.toNat < s.rate.toNat) :
    s.squeezeByte P =
      ((s.doutPut [s.mem.read s.offset.toNat]).setOffset (s.offset + 1#8)).setCnt (s.cnt - 1#24) := by
  have : s.offset ≠ s.rate := fun e => by rw [e] at h; omega
  simp only [State.squeezeByte, if_neg this]

/-- A byte delivered from an exhausted block is the first byte of the next. -/
theorem squeezeByte_of_eq (h : s.offset = s.rate) (hr : 0 < s.rate.toNat) :
    s.squeezeByte P = ((s.permute P).setOffset 0#8).squeezeByte P := by
  have e : ((s.permute P).setOffset 0#8).offset ≠ ((s.permute P).setOffset 0#8).rate := by
    simp only [setOffset_offset, setOffset_rate, permute_rate]
    intro e; rw [← e] at hr; simp at hr
  simp only [State.squeezeByte, if_pos h, if_neg e]

/-- The squeeze changes only the buffer, `dout`, the cursor, `cnt` and the trace. -/
theorem squeezeByte_frame (P : Lanes → Lanes) (s : State) :
    s.squeezeByte P =
      { s with
        mem := (s.squeezeByte P).mem
        offset := (s.squeezeByte P).offset
        cnt := s.cnt - 1#24
        dout := (s.squeezeByte P).dout
        perm := (s.squeezeByte P).perm } := by
  simp only [State.squeezeByte]
  split <;> ext1 <;> simp

@[simp] theorem squeezeSerial_zero : squeezeSerial P 0 s = s := rfl

theorem squeezeSerial_succ (n : Nat) : squeezeSerial P (n + 1) s = squeezeSerial P n (s.squeezeByte P) := rfl

theorem squeezeSerial_add (m n : Nat) (s : State) :
    squeezeSerial P (m + n) s = squeezeSerial P n (squeezeSerial P m s) := by
  induction m generalizing s with
  | zero => simp
  | succ m ih => rw [Nat.succ_add, squeezeSerial_succ, ih, squeezeSerial_succ]

/-- What the whole byte-serial squeeze leaves alone. -/
theorem squeezeSerial_frame (n : Nat) (s : State) :
    squeezeSerial P n s =
      { s with
        mem := (squeezeSerial P n s).mem
        offset := (squeezeSerial P n s).offset
        cnt := (squeezeSerial P n s).cnt
        dout := (squeezeSerial P n s).dout
        perm := (squeezeSerial P n s).perm } := by
  induction n generalizing s with
  | zero => rfl
  | succ n ih => rw [squeezeSerial_succ, ih, squeezeByte_frame]

theorem squeezeSerial_dout_length (n : Nat) (s : State) :
    (squeezeSerial P n s).dout.length = s.dout.length + n := by
  induction n generalizing s with
  | zero => rfl
  | succ n ih =>
    rw [squeezeSerial_succ, ih, State.squeezeByte]
    split <;> simp <;> omega

theorem squeezeSerial_dout_extends (n : Nat) (s : State) : ∃ l, (squeezeSerial P n s).dout = s.dout ++ l := by
  induction n generalizing s with
  | zero => exact ⟨[], by simp⟩
  | succ n ih =>
    obtain ⟨l, hl⟩ := ih (s.squeezeByte P)
    rw [squeezeSerial_succ, hl, State.squeezeByte]
    split <;> exact ⟨_ :: l, by simp; rfl⟩

theorem squeezeSerial_cnt {n : Nat} (h : n ≤ s.cnt.toNat) : (squeezeSerial P n s).cnt.toNat = s.cnt.toNat - n := by
  induction n generalizing s with
  | zero => rfl
  | succ n ih =>
    have e : (s.squeezeByte P).cnt = s.cnt - 1#24 := by rw [squeezeByte_frame]
    have e1 : (s.squeezeByte P).cnt.toNat = s.cnt.toNat - 1 := by rw [e]; exact cnt_sub_toNat (n := 1) (by omega)
    rw [squeezeSerial_succ, ih (by omega), e1]
    omega

/-- `squeezeSerial` does not look at `cnt` but to count it down. -/
theorem squeezeSerial_setCnt (n : Nat) (c : Len) (s : State) :
    squeezeSerial P n (s.setCnt c) = (squeezeSerial P n s).setCnt (c - BitVec.ofNat 24 n) := by
  induction n generalizing s c with
  | zero => ext1 <;> simp
  | succ n ih =>
    have e : (s.setCnt c).squeezeByte P = (s.squeezeByte P).setCnt (c - 1#24) := by
      by_cases hf : s.offset = s.rate
      · simp only [State.squeezeByte, if_pos hf, if_pos (show (s.setCnt c).offset = (s.setCnt c).rate from hf)]; rfl
      · simp only [State.squeezeByte, if_neg hf, if_neg (show ¬(s.setCnt c).offset = (s.setCnt c).rate from hf)]; rfl
    rw [squeezeSerial_succ, squeezeSerial_succ, e, ih]
    congr 1
    apply BitVec.eq_of_toNat_eq
    simp only [BitVec.toNat_sub, BitVec.toNat_ofNat]
    omega

/-! ### One block -/

theorem block_succ (m : Memory) (n : Nat) : m.block (n + 1) = m.block n ++ [m.read n] := by
  simp [Memory.block, List.range_succ]

@[simp] theorem block_length (m : Memory) (n : Nat) : (m.block n).length = n := by simp [Memory.block]

/-- From the start of a block, `n <= rate` bytes are `B[0 .. n]` (42_finalize.md R94). -/
theorem squeezeSerial_block {n : Nat} (ho : s.offset = 0#8) (hr : rateAccepted s.rate) (hn : n ≤ s.rate.toNat) :
    squeezeSerial P n s =
      ((s.doutPut (s.mem.block n)).setOffset (BitVec.ofNat 8 n)).setCnt (s.cnt - BitVec.ofNat 24 n) := by
  induction n with
  | zero =>
    ext1 <;> simp [Memory.block, ho]
  | succ n ih =>
    have hlt : (BitVec.ofNat 8 n).toNat = n := by simp only [BitVec.toNat_ofNat]; omega
    rw [squeezeSerial_add n 1, ih (by omega), squeezeSerial_succ, squeezeSerial_zero, squeezeByte_of_lt]
    · ext1
      all_goals simp only [setCnt_mem, setCnt_rate, setCnt_delimiter, setCnt_offset, setCnt_phase, setCnt_fault,
        setCnt_cause, setCnt_cnt, setCnt_rst, setCnt_cmd, setCnt_din, setCnt_dout, setCnt_perm, setOffset_mem,
        setOffset_rate, setOffset_delimiter, setOffset_offset, setOffset_phase, setOffset_fault, setOffset_cause,
        setOffset_rst, setOffset_cmd, setOffset_din, setOffset_dout, setOffset_perm, doutPut_mem,
        doutPut_rate, doutPut_delimiter, doutPut_phase, doutPut_fault, doutPut_cause,
        doutPut_rst, doutPut_cmd, doutPut_din, doutPut_dout, doutPut_perm, setCnt_accepted, setCnt_dinTaken,
        setCnt_doutTaken, setOffset_accepted, setOffset_dinTaken, setOffset_doutTaken, doutPut_accepted,
        doutPut_dinTaken, doutPut_doutTaken, hlt, block_succ, List.append_assoc]
      · apply BitVec.eq_of_toNat_eq
        simp only [BitVec.toNat_add, BitVec.toNat_ofNat]; omega
      · apply BitVec.eq_of_toNat_eq
        simp only [BitVec.toNat_sub, BitVec.toNat_ofNat]; omega
    · simp only [setCnt_offset, setCnt_rate, setOffset_offset, setOffset_rate, doutPut_rate, hlt]
      omega

/-! ### The loop -/

/-- FINALIZE's squeeze loop, in one equation: from the start of a block it is the byte-serial squeeze of `cnt` bytes
(42_finalize.md R90, R103). -/
theorem squeezeLoop_eq_serial (fuel : Nat) (ho : s.offset = 0#8) (hr : rateAccepted s.rate)
    (hf : s.cnt.toNat < fuel) : squeezeLoop P fuel s = squeezeSerial P s.cnt.toNat s := by
  induction fuel generalizing s with
  | zero => omega
  | succ fuel ih =>
    have h1 := hr.1; have h2 := hr.2
    have hn : s.squeezeChunk ≤ s.rate.toNat ∧ s.squeezeChunk ≤ s.cnt.toNat := by
      simp only [State.squeezeChunk]; omega
    have hone : s.squeezeOne = squeezeSerial P s.squeezeChunk s := (squeezeSerial_block ho hr hn.1).symm
    have hcnt : s.squeezeOne.cnt.toNat = s.cnt.toNat - s.squeezeChunk := cnt_sub_toNat hn.2
    rw [squeezeLoop]
    split
    · next h0 =>
      rw [h0] at hcnt
      have : s.squeezeChunk = s.cnt.toNat := by simp at hcnt; omega
      rw [hone, this]
    · next h0 =>
      have h0' : s.squeezeOne.cnt.toNat ≠ 0 := fun e => h0 (BitVec.eq_of_toNat_eq (by simpa using e))
      have hfull : s.squeezeChunk = s.rate.toNat := by simp only [State.squeezeChunk] at hcnt ⊢; omega
      have hoff : s.squeezeOne.offset = s.squeezeOne.rate := by
        simp only [State.squeezeOne, setCnt_offset, setCnt_rate, setOffset_offset, setOffset_rate, doutPut_rate,
          hfull, BitVec.ofNat_toNat, BitVec.setWidth_eq]
      have hrate : s.squeezeOne.rate = s.rate := rfl
      rw [ih rfl (by simpa [hrate] using hr)
        (by simp only [setOffset_cnt, permute_cnt, hcnt]; omega)]
      simp only [setOffset_cnt, permute_cnt]
      have e : s.cnt.toNat = s.squeezeChunk + s.squeezeOne.cnt.toNat := by omega
      rw [e, squeezeSerial_add, ← hone]
      obtain ⟨k, hk⟩ : ∃ k, s.squeezeOne.cnt.toNat = k + 1 := ⟨s.squeezeOne.cnt.toNat - 1, by omega⟩
      rw [hk, squeezeSerial_succ, squeezeSerial_succ, ← squeezeByte_of_eq hoff (by rw [hrate]; omega)]

/-! ### Cursor and trace -/

/-- The cursor and the number of permutations after `n` bytes from the start of a block (42_finalize.md R95, R98). -/
theorem squeezeSerial_counts (n : Nat) (ho : s.offset = 0#8) (hr : rateAccepted s.rate) :
    (squeezeSerial P n s).offset.toNat = n - s.rate.toNat * ((n - 1) / s.rate.toNat) ∧
    (squeezeSerial P n s).perm.length = s.perm.length + (n - 1) / s.rate.toNat := by
  have h1 := hr.1; have h2 := hr.2
  induction n with
  | zero => simp [ho]
  | succ n ih =>
    rw [squeezeSerial_add n 1, squeezeSerial_succ, squeezeSerial_zero]
    have hrate : (squeezeSerial P n s).rate = s.rate := by rw [squeezeSerial_frame]
    rcases Nat.eq_zero_or_pos n with rfl | hpos
    · simp only [squeezeSerial_zero]
      rw [squeezeByte_of_lt (by rw [ho]; simp; omega)]
      simp [ho]
    · obtain ⟨q, t, hn, ht⟩ : ∃ q t, n = s.rate.toNat * q + t + 1 ∧ t < s.rate.toNat :=
        ⟨(n - 1) / s.rate.toNat, (n - 1) % s.rate.toNat, by have := Nat.div_add_mod (n - 1) s.rate.toNat; omega,
          Nat.mod_lt _ (by omega)⟩
      have hq : (n - 1) / s.rate.toNat = q := by
        rw [hn, Nat.add_sub_cancel, Nat.mul_add_div (by omega), Nat.div_eq_of_lt ht, Nat.add_zero]
      rw [hq] at ih
      simp only [Nat.add_sub_cancel]
      by_cases hf : t + 1 = s.rate.toNat
      · have hq' : n / s.rate.toNat = q + 1 := by
          have e : n = s.rate.toNat * (q + 1) := by rw [Nat.mul_add, Nat.mul_one]; omega
          rw [e]; exact Nat.mul_div_cancel_left _ (by omega)
        have hfull : (squeezeSerial P n s).offset = (squeezeSerial P n s).rate := by
          apply BitVec.eq_of_toNat_eq; rw [hrate, ih.1]; omega
        rw [squeezeByte_of_eq hfull (by rw [hrate]; omega), squeezeByte_of_lt (by simp [hrate]; omega), hq']
        refine ⟨?_, ?_⟩
        · have e : (0#8 + 1#8 : Byte).toNat = 1 := rfl
          simp only [setCnt_offset, setOffset_offset, e, Nat.mul_add, Nat.mul_one]
          omega
        · simp only [setCnt_perm, setOffset_perm, doutPut_perm, permute_perm, List.length_append, ih.2,
            List.length_singleton]
          omega
      · have hq' : n / s.rate.toNat = q := by
          rw [hn, Nat.add_assoc, Nat.mul_add_div (by omega), Nat.div_eq_of_lt (by omega), Nat.add_zero]
        have hoff : (squeezeSerial P n s).offset.toNat = t + 1 := by rw [ih.1]; omega
        rw [squeezeByte_of_lt (by rw [hoff, hrate]; omega), hq']
        refine ⟨?_, by simp [ih.2]⟩
        have e : ((squeezeSerial P n s).offset + 1#8).toNat = (squeezeSerial P n s).offset.toNat + 1 :=
          offset_add_toNat (n := 1) (by omega)
        simp only [setCnt_offset, setOffset_offset, e, hoff]
        omega

theorem wf_squeezeByte (hm : s.mem.wf) : (s.squeezeByte P).mem.wf := by
  simp only [State.squeezeByte]
  split
  · exact wf_ofLanes _
  · exact hm

theorem wf_squeezeSerial (n : Nat) (hm : s.mem.wf) : (squeezeSerial P n s).mem.wf := by
  induction n generalizing s with
  | zero => exact hm
  | succ n ih => exact ih (wf_squeezeByte hm)

end Sys2Proof.Laws
end

