-- ==== Sys2Proof/Laws/Exec.lean ====
section
/-! SUPPORT. What each shared operation around the commands can answer, said once: the halted check, the phase check,
one step. -/

namespace Sys2Proof.Laws

open Sys2Proof.Machine

variable {P : Lanes → Lanes} {s t : State}

/-- The halted check: nothing happens with `fault = 1`; else the effect (60_exceptions.md R125). -/
theorem unlessHalted_next {effect : State → Host.Outcome State Fault Refusal} :
    s.unlessHalted effect = .next t ↔ (s.fault = true ∧ t = s) ∨ (s.fault = false ∧ effect s = .next t) := by
  simp only [State.unlessHalted]
  split
  · next h => simp [h, eq_comm]
  · next h => simp [h]

theorem unlessHalted_of_halted (h : s.fault = true) (effect : State → Host.Outcome State Fault Refusal) :
    s.unlessHalted effect = .next s := by simp [State.unlessHalted, h]

theorem unlessHalted_of_running (h : s.fault = false) (effect : State → Host.Outcome State Fault Refusal) :
    s.unlessHalted effect = effect s := by simp [State.unlessHalted, h]

/-- The phase check: NotConstructed in IDLE, UseAfterFinalize in CONSUMED, the effect in ABSORBING with the cursor in
its block, and no next state otherwise (41_absorb.md R81, 42_finalize.md R99). -/
theorem whenAbsorbing_next {effect : State → Host.Outcome State Fault Refusal} :
    s.whenAbsorbing effect = .next t ↔
      (s.phase = .idle ∧ t = s.takeCmd.raise .notConstructed) ∨
      (s.phase = .consumed ∧ t = s.takeCmd.raise .useAfterFinalize) ∨
      (s.phase = .absorbing ∧ s.cursorInBlock ∧ effect s = .next t) := by
  simp only [State.whenAbsorbing]
  split
  · next h => simp [h, eq_comm]
  · next h => simp [h, eq_comm]
  · next h => simp [h]
  · next h =>
    simp only [h]
    by_cases hc : s.cursorInBlock
    · rw [if_pos hc]; simp only [true_and, reduceCtorEq, false_and, false_or]; exact ⟨fun h => ⟨hc, h⟩, And.right⟩
    · rw [if_neg hc]; simp only [hc, false_and, and_false, reduceCtorEq, or_self]

theorem whenAbsorbing_of_idle (h : s.phase = .idle) (effect : State → Host.Outcome State Fault Refusal) :
    s.whenAbsorbing effect = .next (s.takeCmd.raise .notConstructed) := by simp [State.whenAbsorbing, h]

theorem whenAbsorbing_of_consumed (h : s.phase = .consumed) (effect : State → Host.Outcome State Fault Refusal) :
    s.whenAbsorbing effect = .next (s.takeCmd.raise .useAfterFinalize) := by simp [State.whenAbsorbing, h]

theorem whenAbsorbing_of_absorbing (h : s.phase = .absorbing) (hc : s.cursorInBlock)
    (effect : State → Host.Outcome State Fault Refusal) : s.whenAbsorbing effect = effect s := by
  simp only [State.whenAbsorbing, h, if_pos hc]

/-- What one step can answer, for any meaning of the commands (60_exceptions.md R127, 70_reset_and_hazards.md R140). -/
theorem stepBy_next {run : Instr → State → Host.Outcome State Fault Refusal} :
    stepBy run s = .next t ↔
      (s.rst = true ∧ t = State.reset) ∨
      (s.rst = false ∧
        ((s.fault = true ∧ t = s) ∨
        (s.fault = false ∧
          ((s.cmd = [] ∧ t = s) ∨
          (∃ w rest e, s.cmd = w :: rest ∧ decode w = .error e ∧ t = s.takeCmd.raise .illegalCommand) ∨
          ∃ w rest i, s.cmd = w :: rest ∧ decode w = .ok i ∧ run i s = .next t)))) := by
  cases hr : s.rst with
  | true =>
    have hs : stepBy run s = .next State.reset := by simp [stepBy, hr]
    rw [hs]
    constructor
    · intro h; cases h; exact .inl ⟨rfl, rfl⟩
    · rintro (⟨_, rfl⟩ | ⟨h, _⟩)
      · rfl
      · cases h
  | false =>
    cases hf : s.fault with
    | true => simp [stepBy, hr, hf, eq_comm (a := t)]
    | false =>
      cases hc : s.cmd with
      | nil => simp [stepBy, hr, hf, hc, eq_comm (a := t)]
      | cons w rest =>
        cases hd : decode w with
        | error e =>
          have hs : stepBy run s = .next (s.takeCmd.raise .illegalCommand) := by simp [stepBy, hr, hf, hc, hd]
          rw [hs]
          constructor
          · intro h; cases h
            exact .inr ⟨rfl, .inr ⟨rfl, .inr (.inl ⟨w, rest, e, rfl, hd, rfl⟩)⟩⟩
          · rintro (⟨h, _⟩ | ⟨_, ⟨h, _⟩ | ⟨_, ⟨h, _⟩ | ⟨_, _, _, h, _, rfl⟩ | ⟨_, _, _, h, h', _⟩⟩⟩)
            · cases h
            · cases h
            · cases h
            · rfl
            · cases h; rw [hd] at h'; cases h'
        | ok i =>
          have hs : stepBy run s = run i s := by simp [stepBy, hr, hf, hc, hd]
          rw [hs]
          constructor
          · intro h
            exact .inr ⟨rfl, .inr ⟨rfl, .inr (.inr ⟨w, rest, i, rfl, hd, h⟩)⟩⟩
          · rintro (⟨h, _⟩ | ⟨_, ⟨h, _⟩ | ⟨_, ⟨h, _⟩ | ⟨_, _, _, h, h', _⟩ | ⟨_, _, _, h, h', h''⟩⟩⟩)
            · cases h
            · cases h
            · cases h
            · cases h; rw [hd] at h'; cases h'
            · cases h; rw [hd] at h'; cases h'; exact h''

/-- The three commands' meanings in terms of the meanings at any permutation. -/
theorem exec_eq_execWith (i : Instr) (s : State) : exec i s = execWith Config.P i s := by cases i <;> rfl

/-- The state ABSORB answers when it runs to its end: the byte-serial form on its payload (41_absorb.md R80, R85). -/
theorem absorbLoop_payload {len : Len} (hc : s.cursorInBlock) (hp : s.payloadReady len) :
    absorbLoop P len.toNat (s.setCnt len) =
      (((absorbSerial P (s.din.take len.toNat) s).dinTake len.toNat).setCnt 0#24) := by
  have h0 : (s.setCnt len).cursorInBlock := hc
  rw [absorbLoop_eq_serial len.toNat h0 hp (Nat.le_refl _)]
  have e := absorbSerial_dinTake_setCnt (P := P) (s.din.take len.toNat) 0 len s
  rw [dinTake_zero, dinTake_zero] at e
  simp only [setCnt_cnt, setCnt_din, e]
  rfl

/-- The state FINALIZE's squeeze leaves: the byte-serial squeeze (42_finalize.md R90, R103). -/
theorem squeezeLoop_output {outlen : Len} (hr : rateAccepted s.rate) (ho : s.offset = 0#8) :
    squeezeLoop P (outlen.toNat + 1) (s.setCnt outlen) = squeezeSerial P outlen.toNat (s.setCnt outlen) := by
  rw [squeezeLoop_eq_serial (s := s.setCnt outlen) _ ho hr (by simp), setCnt_cnt]

@[simp] theorem pad_rate : s.pad.rate = s.rate := rfl
@[simp] theorem pad_delimiter : s.pad.delimiter = s.delimiter := rfl
@[simp] theorem pad_offset : s.pad.offset = s.offset := rfl
@[simp] theorem pad_perm : s.pad.perm = s.perm := rfl

/-- Padding and the first permutation, in one equation (42_finalize.md R91, R93). -/
theorem closeBlock_eq (P : Lanes → Lanes) (s : State) :
    s.closeBlock P =
      { s with
        mem := Memory.ofLanes (P s.pad.mem.lanes)
        offset := 0#8
        phase := .squeezing
        perm := s.perm ++ [s.pad.mem.lanes] } := by
  ext1 <;> simp [State.closeBlock, State.pad]

/-! ### The three commands -/

/-- What INIT can answer (40_construct.md R70, R72). -/
theorem execInit_next {rate delim : Byte} :
    execInit rate delim s = .next t ↔
      (s.fault = true ∧ t = s) ∨
      (s.fault = false ∧ rateAccepted rate ∧ t = (s.accept (.init rate delim)).construct rate delim) ∨
      (s.fault = false ∧ ¬rateAccepted rate ∧ t = s.takeCmd.raise .badRate) := by
  rw [execInit, unlessHalted_next]
  by_cases h : rateAccepted rate
  · rw [if_pos h, Host.Outcome.next.injEq, eq_comm (b := t)]; tauto
  · rw [if_neg h, Host.Outcome.next.injEq, eq_comm (b := t)]; tauto

/-- The state an ABSORB that runs to its end leaves: its payload absorbed byte by byte, its word and payload taken,
`cnt = 0` (41_absorb.md R80, R85). -/
def absorbed (P : Lanes → Lanes) (len : Len) (s : State) : State :=
  ((absorbSerial P (s.din.take len.toNat) (s.accept (.absorb len))).dinTake len.toNat).setCnt 0#24

theorem absorbWith_run {len : Len} (h1 : s.fault = false) (h2 : s.phase = .absorbing) (h3 : s.cursorInBlock)
    (h4 : s.payloadReady len) : absorbWith P len s = .next (absorbed P len s) := by
  rw [absorbWith, unlessHalted_of_running h1, whenAbsorbing_of_absorbing h2 h3, if_pos h4, absorbLoop_payload (s := s.accept (.absorb len)) h3 h4]
  rfl

/-- What ABSORB can answer (41_absorb.md R80, R81). -/
theorem absorbWith_next {len : Len} :
    absorbWith P len s = .next t ↔
      (s.fault = true ∧ t = s) ∨
      (s.fault = false ∧ s.phase = .idle ∧ t = s.takeCmd.raise .notConstructed) ∨
      (s.fault = false ∧ s.phase = .consumed ∧ t = s.takeCmd.raise .useAfterFinalize) ∨
      (s.fault = false ∧ s.phase = .absorbing ∧ s.cursorInBlock ∧ ¬s.payloadReady len ∧ t = s) ∨
      (s.fault = false ∧ s.phase = .absorbing ∧ s.cursorInBlock ∧ s.payloadReady len ∧ t = absorbed P len s) := by
  rw [absorbWith, unlessHalted_next, whenAbsorbing_next]
  by_cases h : s.payloadReady len
  · by_cases hc : s.cursorInBlock
    · have e : Host.Outcome.next (φ := Fault) (ρ := Refusal) (absorbLoop P len.toNat ((s.accept (.absorb len)).setCnt len)) =
          .next t ↔ t = absorbed P len s := by
        rw [absorbLoop_payload (s := s.accept (.absorb len)) hc h, Host.Outcome.next.injEq, eq_comm]; rfl
      rw [if_pos h, e]
      tauto
    · tauto
  · have e : Host.Outcome.next (φ := Fault) (ρ := Refusal) s = .next t ↔ t = s := by
      rw [Host.Outcome.next.injEq, eq_comm]
    rw [if_neg h, e]
    tauto

/-- The state an accepted FINALIZE leaves: the block closed, `outlen` bytes squeezed one by one, CONSUMED
(42_finalize.md R90, R95, R103). -/
def finalized (P : Lanes → Lanes) (outlen : Len) (s : State) : State :=
  (squeezeSerial P outlen.toNat (((s.accept (.finalize outlen)).closeBlock P).setCnt outlen)).setPhase .consumed

/-- What FINALIZE can answer (42_finalize.md R90, R99). -/
theorem finalizeWith_next {outlen : Len} :
    finalizeWith P outlen s = .next t ↔
      (s.fault = true ∧ t = s) ∨
      (s.fault = false ∧ s.phase = .idle ∧ t = s.takeCmd.raise .notConstructed) ∨
      (s.fault = false ∧ s.phase = .consumed ∧ t = s.takeCmd.raise .useAfterFinalize) ∨
      (s.fault = false ∧ s.phase = .absorbing ∧ s.cursorInBlock ∧ t = finalized P outlen s) := by
  rw [finalizeWith, unlessHalted_next, whenAbsorbing_next]
  by_cases hc : s.cursorInBlock
  · have e : Host.Outcome.next (φ := Fault) (ρ := Refusal)
        ((squeezeLoop P (outlen.toNat + 1) (((s.accept (.finalize outlen)).closeBlock P).setCnt outlen)).setPhase .consumed) =
        .next t ↔ t = finalized P outlen s := by
      rw [squeezeLoop_output (s := (s.accept (.finalize outlen)).closeBlock P) hc.1 rfl, Host.Outcome.next.injEq, eq_comm]; rfl
    rw [e]
    tauto
  · tauto

theorem finalizeWith_run {outlen : Len} (h1 : s.fault = false) (h2 : s.phase = .absorbing) (h3 : s.cursorInBlock) :
    finalizeWith P outlen s = .next (finalized P outlen s) :=
  finalizeWith_next.2 (.inr (.inr (.inr ⟨h1, h2, h3, rfl⟩)))

end Sys2Proof.Laws
end

