-- ==== Sys2Proof/Laws/Effects.lean ====
section
/-! SUPPORT. Everything the two long effects leave: `absorbed`, the end of an ABSORB, and `finalized`, the end of a
FINALIZE; what changes, what does not, and what is known of the new values. -/

namespace Sys2Proof.Laws

open Sys2Proof.Machine

variable {P : Lanes → Lanes} {s t : State}

/-! ### The three commands, as `exec` answers them -/

theorem exec_init_next {rate delim : Byte} (h : exec (.init rate delim) s = .next t) :
    (s.fault = true ∧ t = s) ∨
    (s.fault = false ∧ rateAccepted rate ∧ t = (s.accept (.init rate delim)).construct rate delim) ∨
    (s.fault = false ∧ ¬rateAccepted rate ∧ t = s.takeCmd.raise .badRate) :=
  execInit_next.1 h

theorem exec_absorb_next {len : Len} (h : exec (.absorb len) s = .next t) :
    (s.fault = true ∧ t = s) ∨
    (s.fault = false ∧ s.phase = .idle ∧ t = s.takeCmd.raise .notConstructed) ∨
    (s.fault = false ∧ s.phase = .consumed ∧ t = s.takeCmd.raise .useAfterFinalize) ∨
    (s.fault = false ∧ s.phase = .absorbing ∧ s.cursorInBlock ∧ ¬s.payloadReady len ∧ t = s) ∨
    (s.fault = false ∧ s.phase = .absorbing ∧ s.cursorInBlock ∧ s.payloadReady len ∧ t = absorbed Config.P len s) :=
  absorbWith_next.1 h

theorem exec_finalize_next {outlen : Len} (h : exec (.finalize outlen) s = .next t) :
    (s.fault = true ∧ t = s) ∨
    (s.fault = false ∧ s.phase = .idle ∧ t = s.takeCmd.raise .notConstructed) ∨
    (s.fault = false ∧ s.phase = .consumed ∧ t = s.takeCmd.raise .useAfterFinalize) ∨
    (s.fault = false ∧ s.phase = .absorbing ∧ s.cursorInBlock ∧ t = finalized Config.P outlen s) :=
  finalizeWith_next.1 h

theorem exec_absorb_run {len : Len} (h1 : s.fault = false) (h2 : s.phase = .absorbing) (h3 : s.cursorInBlock)
    (h4 : s.payloadReady len) : exec (.absorb len) s = .next (absorbed Config.P len s) :=
  absorbWith_run h1 h2 h3 h4

theorem exec_finalize_run {outlen : Len} (h1 : s.fault = false) (h2 : s.phase = .absorbing) (h3 : s.cursorInBlock) :
    exec (.finalize outlen) s = .next (finalized Config.P outlen s) :=
  finalizeWith_run h1 h2 h3

/-! ### ABSORB -/

/-- What an ABSORB that runs leaves alone (41_absorb.md R80). -/
theorem absorbed_eq (P : Lanes → Lanes) (len : Len) (s : State) :
    absorbed P len s =
      { s with
        mem := (absorbed P len s).mem
        offset := (absorbed P len s).offset
        cnt := 0#24
        cmd := s.cmd.tail
        din := s.din.drop len.toNat
        perm := (absorbed P len s).perm
        accepted := s.accepted ++ [.absorb len]
        dinTaken := s.dinTaken ++ s.din.take len.toNat } := by
  unfold absorbed
  rw [absorbSerial_frame]
  ext1 <;> rfl

theorem wf_absorbed {len : Len} (hm : s.mem.wf) (hc : s.cursorInBlock) : (absorbed P len s).mem.wf :=
  wf_absorbSerial (s := s.accept (.absorb len)) hm hc _

theorem absorbed_cursor {len : Len} (hc : s.cursorInBlock) : (absorbed P len s).cursorInBlock :=
  absorbSerial_cursor (s := s.accept (.absorb len)) hc _

/-! ### FINALIZE -/

/-- What an accepted FINALIZE leaves alone (42_finalize.md R90, R95). -/
theorem finalized_eq (P : Lanes → Lanes) (outlen : Len) (s : State) :
    finalized P outlen s =
      { s with
        mem := (finalized P outlen s).mem
        offset := (finalized P outlen s).offset
        cnt := (finalized P outlen s).cnt
        phase := .consumed
        cmd := s.cmd.tail
        dout := (finalized P outlen s).dout
        perm := (finalized P outlen s).perm
        accepted := s.accepted ++ [.finalize outlen] } := by
  unfold finalized
  rw [squeezeSerial_frame]
  ext1 <;> rfl

theorem finalized_cnt (P : Lanes → Lanes) (outlen : Len) (s : State) : (finalized P outlen s).cnt = 0#24 := by
  apply BitVec.eq_of_toNat_eq
  show (squeezeSerial _ _ _).cnt.toNat = 0
  rw [squeezeSerial_cnt] <;> simp

theorem wf_finalized {outlen : Len} : (finalized P outlen s).mem.wf :=
  wf_squeezeSerial (s := ((s.accept (.finalize outlen)).closeBlock P).setCnt outlen) _ (wf_ofLanes _)

/-- The cursor and the number of permutations a FINALIZE leaves (42_finalize.md R95, R98). -/
theorem finalized_counts {outlen : Len} (hc : s.cursorInBlock) :
    (finalized P outlen s).offset.toNat = outlen.toNat - s.rate.toNat * ((outlen.toNat - 1) / s.rate.toNat) ∧
    (finalized P outlen s).perm.length = s.perm.length + 1 + (outlen.toNat - 1) / s.rate.toNat := by
  have := squeezeSerial_counts (P := P) (s := ((s.accept (.finalize outlen)).closeBlock P).setCnt outlen) outlen.toNat rfl hc.1
  refine ⟨this.1, this.2.trans ?_⟩
  simp [State.closeBlock]

theorem finalized_dout_length (P : Lanes → Lanes) (outlen : Len) (s : State) :
    (finalized P outlen s).dout.length = s.dout.length + outlen.toNat :=
  squeezeSerial_dout_length (P := P) outlen.toNat (((s.accept (.finalize outlen)).closeBlock P).setCnt outlen)

theorem finalized_dout_extends (P : Lanes → Lanes) (outlen : Len) (s : State) :
    ∃ out, (finalized P outlen s).dout = s.dout ++ out :=
  squeezeSerial_dout_extends (P := P) outlen.toNat (((s.accept (.finalize outlen)).closeBlock P).setCnt outlen)

theorem squeezeSerial_perm_extends (n : Nat) (s : State) : ∃ l, (squeezeSerial P n s).perm = s.perm ++ l := by
  induction n generalizing s with
  | zero => exact ⟨[], by simp⟩
  | succ n ih =>
    obtain ⟨l, hl⟩ := ih (s.squeezeByte P)
    rw [squeezeSerial_succ, hl, State.squeezeByte]
    split
    · exact ⟨_, by simp only [setCnt_perm, setOffset_perm, doutPut_perm, permute_perm, List.append_assoc]; rfl⟩
    · exact ⟨l, by simp⟩

/-- The first permutation of a FINALIZE is handed the padded buffer (42_finalize.md R93). -/
theorem finalized_perm_first (P : Lanes → Lanes) (outlen : Len) (s : State) :
    ∃ calls, (finalized P outlen s).perm = s.perm ++ s.pad.mem.lanes :: calls := by
  obtain ⟨l, hl⟩ := squeezeSerial_perm_extends (P := P) outlen.toNat (((s.accept (.finalize outlen)).closeBlock P).setCnt outlen)
  refine ⟨l, hl.trans ?_⟩
  show (s.perm ++ [s.pad.mem.lanes]) ++ l = _
  rw [List.append_assoc, List.singleton_append]

/-- A buffer that a permutation left stays the last permutation's result through a squeeze. -/
theorem squeezeSerial_perm_last (n : Nat) (s : State)
    (h : ∃ l L, s.perm = l ++ [L] ∧ s.mem = Memory.ofLanes (P L)) :
    ∃ l L, (squeezeSerial P n s).perm = l ++ [L] ∧ (squeezeSerial P n s).mem = Memory.ofLanes (P L) := by
  induction n generalizing s with
  | zero => exact h
  | succ n ih =>
    apply ih
    simp only [State.squeezeByte]
    split
    · exact ⟨s.perm, s.mem.lanes, rfl, rfl⟩
    · exact h

/-- After a FINALIZE the buffer is the last permutation's result (42_finalize.md R95). -/
theorem finalized_perm_last (P : Lanes → Lanes) (outlen : Len) (s : State) :
    ∃ calls L, (finalized P outlen s).perm = s.perm ++ calls ++ [L] ∧
      (finalized P outlen s).mem = Memory.ofLanes (P L) := by
  obtain ⟨l, L, h, hm⟩ : ∃ l L, (finalized P outlen s).perm = l ++ [L] ∧
      (finalized P outlen s).mem = Memory.ofLanes (P L) :=
    squeezeSerial_perm_last outlen.toNat (((s.accept (.finalize outlen)).closeBlock P).setCnt outlen) ⟨_, _, rfl, rfl⟩
  obtain ⟨calls, hc⟩ := finalized_perm_first P outlen s
  rcases List.eq_nil_or_concat (s.pad.mem.lanes :: calls) with hn | ⟨k, x, hx⟩
  · cases hn
  · rw [List.concat_eq_append] at hx
    have e : s.perm ++ k ++ [x] = l ++ [L] := by rw [List.append_assoc, ← hx, ← hc, h]
    have hk : s.perm ++ k = l := List.append_inj_left' e rfl
    exact ⟨k, L, by rw [hk]; exact h, hm⟩

end Sys2Proof.Laws
end

