-- ==== Sys2Proof/Laws/Keccak.lean ====
section
/-! SUPPORT. `piSource` is the inverse of `piDest`, so that `rhoPi` written from the destinations is the rule of
43_permutation_port.md R112 written from the sources. -/

namespace Sys2Proof.Laws

open Sys2Proof.Machine

theorem piDest_piSource : ∀ j, piDest (piSource j) = j := by decide

theorem piSource_piDest : ∀ k, piSource (piDest k) = k := by decide

end Sys2Proof.Laws
end

