-- ==== Sys2Proof/Laws/PerInstr.lean ====
section
/-! SUPPORT. Statements per command about it as syntax: every command's word matches its row of the opcode map, and no
command carries an operand its field cannot hold. -/

namespace Sys2Proof.Laws

/-- Every command is well formed: its operand types are the widths of its fields (30_encoding.md R53). -/
theorem instr_wellFormed (i : Instr) : i.wellFormed = true := by
  cases i with
  | init rate delim => simp [Instr.wellFormed, rate.isLt, delim.isLt]
  | absorb len => simpa [Instr.wellFormed] using len.isLt
  | finalize outlen => simpa [Instr.wellFormed] using outlen.isLt

namespace EncodedRow

/-- The number of the command's row in the opcode map (30_encoding.md R55). -/
def rowOf : Instr → Nat
  | .init _ _ => 0
  | .absorb _ => 1
  | .finalize _ => 2

/-- The command's word matches its own row of the opcode map and no other. -/
def Statement (i : Instr) : Prop :=
  ∀ n, ∀ r ∈ opcodeMap[n]?, r.hit (encode i) = decide (n = rowOf i)

theorem row_hits {w : Word} {k : Nat} (h0 : (w &&& 0xFFFF0000#32 == 0x01000000#32) = decide (0 = k))
    (h1 : (w &&& 0xFF000000#32 == 0x02000000#32) = decide (1 = k))
    (h2 : (w &&& 0xFF000000#32 == 0x03000000#32) = decide (2 = k)) :
    ∀ n, ∀ r ∈ opcodeMap[n]?, r.hit w = decide (n = k) := by
  intro n r hr
  match n with
  | 0 => cases hr; exact h0
  | 1 => cases hr; exact h1
  | 2 => cases hr; exact h2
  | n + 3 => simp [opcodeMap] at hr

theorem and_opcodeMask (h : BitVec 8) (l : BitVec 24) : (h ++ l : Word) &&& 0xFF000000#32 = h ++ 0#24 := by
  have e : 0xFF000000#32 = 0xFF#8 ++ 0#24 := by decide
  have a : h &&& 0xFF#8 = h := BitVec.and_allOnes
  rw [e, BitVec.and_append, a, BitVec.and_zero]

theorem and_initMask (h z r d : Byte) : (h ++ z ++ r ++ d : Word) &&& 0xFFFF0000#32 = h ++ z ++ 0#8 ++ 0#8 := by
  have e : 0xFFFF0000#32 = 0xFF#8 ++ 0xFF#8 ++ 0#8 ++ 0#8 := by decide
  have a (x : Byte) : x &&& 0xFF#8 = x := BitVec.and_allOnes
  rw [e, BitVec.and_append, BitVec.and_append, BitVec.and_append, a, a, BitVec.and_zero, BitVec.and_zero]

theorem init (rate delim : Byte) : Statement (.init rate delim) := by
  have e : encode (.init rate delim) = (0x01#8 ++ (0x00#8 ++ rate ++ delim : BitVec 24) : Word) := by
    simp only [encode]; ext i hi; simp only [BitVec.getElem_append]; grind
  refine row_hits ?_ ?_ ?_
  · rw [encode, and_initMask]; simp only [rowOf]; decide
  · rw [e, and_opcodeMask]; exact (by decide : ((0x01#8 ++ 0#24 : Word) == 0x02000000#32) = false)
  · rw [e, and_opcodeMask]; exact (by decide : ((0x01#8 ++ 0#24 : Word) == 0x03000000#32) = false)

theorem absorb (len : Len) : Statement (.absorb len) := by
  refine row_hits ?_ ?_ ?_
  · have e : (0x02#8 ++ len : Word) &&& 0xFFFF0000#32 ≠ 0x01000000#32 := by
      intro h
      have := congrArg (· &&& 0xFF000000#32) h
      simp only [BitVec.and_assoc] at this
      rw [show 0xFFFF0000#32 &&& 0xFF000000#32 = 0xFF000000#32 by decide, and_opcodeMask] at this
      exact absurd this (by decide)
    simpa [encode, rowOf] using e
  · rw [encode, and_opcodeMask]; exact (by decide : ((0x02#8 ++ 0#24 : Word) == 0x02000000#32) = true)
  · rw [encode, and_opcodeMask]; exact (by decide : ((0x02#8 ++ 0#24 : Word) == 0x03000000#32) = false)

theorem finalize (outlen : Len) : Statement (.finalize outlen) := by
  refine row_hits ?_ ?_ ?_
  · have e : (0x03#8 ++ outlen : Word) &&& 0xFFFF0000#32 ≠ 0x01000000#32 := by
      intro h
      have := congrArg (· &&& 0xFF000000#32) h
      simp only [BitVec.and_assoc] at this
      rw [show 0xFFFF0000#32 &&& 0xFF000000#32 = 0xFF000000#32 by decide, and_opcodeMask] at this
      exact absurd this (by decide)
    simpa [encode, rowOf] using e
  · rw [encode, and_opcodeMask]; exact (by decide : ((0x03#8 ++ 0#24 : Word) == 0x02000000#32) = false)
  · rw [encode, and_opcodeMask]; exact (by decide : ((0x03#8 ++ 0#24 : Word) == 0x03000000#32) = true)

end EncodedRow

end Sys2Proof.Laws
end

