-- ==== Sys2Proof/Machine/AsmText.lean ====
section
/-! DEFINITION. Reading one line of assembler text (30_encoding.md R60, R61): comments, numbers, data, operands. -/

namespace Sys2Proof.Machine

/-- The line up to its comment; a `;` inside a double-quoted string is a character of the string. -/
def dropComment : Bool → List Char → List Char
  | _, [] => []
  | quoted, d :: ds =>
    if d = '"' then d :: dropComment (!quoted) ds
    else if d = ';' ∧ quoted = false then []
    else d :: dropComment quoted ds

/-- Without the spaces around it. -/
def trim (t : List Char) : List Char := ((t.dropWhile (· == ' ')).reverse.dropWhile (· == ' ')).reverse

/-- The value of digits in a base, most significant first; `none` for a character that is no digit of the base. -/
def digitsValue (base : Nat) : Nat → List Char → Option Nat
  | acc, [] => some acc
  | acc, d :: ds =>
    match hexDigit d with
    | some v => if v < base then digitsValue base (base * acc + v) ds else none
    | none => none

/-- A number, decimal or `0x` hexadecimal (30_encoding.md R60). -/
def readNumber (t : List Char) : Option Nat :=
  match trim t with
  | [] => none
  | ['0', 'x'] => none
  | '0' :: 'x' :: ds => digitsValue 16 0 ds
  | ds => digitsValue 10 0 ds

/-- The text before and after the first `mark`, `none` without one. -/
def splitAtChar (mark : Char) : List Char → Option (List Char × List Char)
  | [] => none
  | d :: ds => if d = mark then some ([], ds) else (splitAtChar mark ds).map fun p => (d :: p.1, p.2)

/-- `<data>`: `hex:` digits, a double-quoted string, or `<count> * <byte>` (30_encoding.md R60). -/
def readData (t : List Char) : Option AsmData :=
  match trim t with
  | 'h' :: 'e' :: 'x' :: ':' :: ds => some (.hex ds)
  | '"' :: ds => if ds.getLast? = some '"' ∧ '"' ∉ ds.dropLast then some (.ascii ds.dropLast) else none
  | ds =>
    match splitAtChar '*' ds with
    | none => none
    | some (count, byte) =>
      match readNumber count, readNumber byte with
      | some n, some b => if b < 256 then some (.repeated n (BitVec.ofNat 8 b)) else none
      | _, _ => none

/-- The line a mnemonic and its operands stand for (30_encoding.md R60, R61). -/
def readCommand (mnemonic : String) (operands : List Char) : Option AsmLine :=
  if mnemonic = "INIT" then
    match splitAtChar ',' operands with
    | none => none
    | some (rate, delim) =>
      match readNumber rate, readNumber delim with
      | some r, some d => some (.init r d)
      | _, _ => none
  else if mnemonic = "ABSORB" then ((readData operands).bind AsmData.bytes).map .absorb
  else if mnemonic = "UPDATE" then ((readData operands).bind AsmData.bytes).map .update
  else if mnemonic = "FINALIZE" then (readNumber operands).map .finalize
  else if mnemonic = ".word" then (readNumber operands).map .word
  else if trim operands ≠ [] then none
  else if mnemonic = "INIT224" then some (.initLevel 224)
  else if mnemonic = "INIT256" then some (.initLevel 256)
  else if mnemonic = "INIT384" then some (.initLevel 384)
  else if mnemonic = "INIT512" then some (.initLevel 512)
  else none

/-- One line of assembler text: no command in an empty line or a comment, one command otherwise, and `none` for an
assembly-time error, which a command outside the accepted operand ranges is too (30_encoding.md R60, R61). -/
def readLine (text : String) : Option (List AsmLine) :=
  let t := trim (dropComment false text.toList)
  if t = [] then some []
  else
    match readCommand (String.ofList (t.takeWhile (· != ' '))) (t.dropWhile (· != ' ')) with
    | none => none
    | some l => if l.wellFormed then some [l] else none

end Sys2Proof.Machine
end

