-- ==== Sys2Proof/Tests/Slice0.lean ====
section
/-! SUPPORT. Small tests of one step, their expected values from 95_test_vectors.md or written out from the encoding
rules; and for every obligation with hypotheses a concrete state and operands that meet them. -/

namespace Sys2Proof.Tests

open Sys2Proof Sys2Proof.Machine Sys2Proof.Laws

/-! ### Helpers -/

/-- The next state of an outcome meets `f`. -/
def after (o : Host.Outcome State Fault Refusal) (f : State → Bool) : Bool :=
  match o with
  | .next t => f t
  | _ => false

theorem exists_of_after {o : Host.Outcome State Fault Refusal} {f : State → Bool} (h : after o f = true) :
    ∃ t, o = .next t ∧ f t = true := by
  cases o with
  | next t => exact ⟨t, rfl, h⟩
  | fault r => cases h
  | refused r => cases h

/-- The toy permutation of 95_test_vectors.md section 0. -/
def toyP (L : Lanes) : Lanes :=
  Vector.ofFn fun k =>
    if k.val < 12 then L[24 - k.val] ^^^ rotl64 L[k] 1 else if k.val = 12 then rotl64 L[12] 1 else L[24 - k.val]

/-- 25 lanes of which only `L[0]` and `L[24]` are not zero. -/
def lanes2 (l0 l24 : Lane) : Lanes := ((Vector.replicate 25 0#64).set 0 l0).set 24 l24

/-- The engine right after INIT. -/
def fresh (rate delim : Byte) : State :=
  { State.reset with rate := rate, delimiter := delim, phase := .absorbing }

/-- The state of vector V-A1: rate 4, three bytes absorbed, one byte of room. -/
def roomForOne : State :=
  { fresh 4#8 0x01#8 with mem := [(0, 0x11#8), (1, 0x22#8), (2, 0x33#8)], offset := 3#8 }

/-- The state of vector V-A3, after a permutation of `toyP`. -/
def permutedOnce : State :=
  { fresh 4#8 0x01#8 with mem := Memory.ofLanes (lanes2 0x0000000088664477 0x0000000044332211), offset := 1#8 }

/-- A consumed instance with output on `dout`. -/
def consumed : State :=
  { fresh 4#8 0x01#8 with
    mem := [(0, 0x89#8)], offset := 2#8, phase := .consumed, dout := [0x89#8, 0x14#8], perm := [lanes2 0x81 0] }

/-- A halted engine with a command waiting. -/
def halted : State := { consumed with fault := true, cause := .useAfterFinalize, cmd := [0x01008801#32] }

/-! ### Well-formedness: each check refuses an ill-formed term -/

theorem test_wf_reserved_opcode : wordWellFormed 0x04000000#32 = false := by decide
theorem test_wf_opcode_zero : wordWellFormed 0x00000000#32 = false := by decide
theorem test_wf_init_zero_field : wordWellFormed 0x01018801#32 = false := by decide
theorem test_wf_accepts : [0x0100FF01#32, 0x02FFFFFF#32, 0x03000000#32].all wordWellFormed = true := by decide
theorem test_wf_instr : Instr.wellFormed (.init 255 0) = true := by decide
theorem test_wf_line_rate : (AsmLine.init 256 0x01).wellFormed = false := by decide
theorem test_wf_line_delim : (AsmLine.init 136 256).wellFormed = false := by decide
theorem test_wf_line_length (data : List Byte) (h : data.length = 16777216) :
    (AsmLine.absorb data).wellFormed = false := by
  rw [AsmLine.wellFormed, h]; decide
theorem test_wf_line_outlen : (AsmLine.finalize 16777216).wellFormed = false := by decide
theorem test_wf_line_word : (AsmLine.word 0x100000000).wellFormed = false := by decide
theorem test_wf_line_level : (AsmLine.initLevel 255).wellFormed = false := by decide
theorem test_wf_line_accepts :
    ((AsmLine.init 255 255).wellFormed && (AsmLine.finalize 16777215).wellFormed &&
      (AsmLine.word 0xFFFFFFFF).wellFormed && (AsmLine.initLevel 384).wellFormed) = true := by decide

/-! ### Decoding: words written out from the formats (30_encoding.md R51, R52) -/

/-- Opcode 0x01, zero 0x00, rate 136 = 0b10001000, delim 0x01. -/
theorem test_decode_init :
    decode 0b00000001_00000000_10001000_00000001#32 = .ok (.init 136 0x01) := by decide
/-- Opcode 0x02, len 3. -/
theorem test_decode_absorb :
    decode 0b00000010_00000000_00000000_00000011#32 = .ok (.absorb 3) := by decide
/-- Opcode 0x03, outlen 32 = 0b100000. -/
theorem test_decode_finalize :
    decode 0b00000011_00000000_00000000_00100000#32 = .ok (.finalize 32) := by decide
/-- Every byte of a length counts, most significant first: 0x010203. -/
theorem test_decode_length_bytes : decode 0x02010203#32 = .ok (.absorb 66051) := by decide
theorem test_decode_illegal :
    [0x00000000#32, 0xFFFFFFFF#32, 0x04000000#32].map decode = List.replicate 3 (.error .reservedOpcode) := by rfl
theorem test_decode_zero_field : decode 0x01FF8801#32 = .error .nonzeroField := by decide
theorem test_encode_init : encode (.init 0xA8 0x1F) = 0x0100A81F#32 := by decide
theorem test_table_word : decodeTableWord 32 0x01000000 = some (.init 0 0) := by decide
/-- The assembler's `INIT224` (V-I2) and `ABSORB "a"` (V-K2). -/
theorem test_assemble :
    (AsmLine.initLevel 224).assemble = [⟨0x01009001#32, []⟩] ∧
    (AsmLine.absorb [0x61#8]).assemble = [⟨0x02000001#32, [0x61#8]⟩] := by decide

/-- The three ways data is written (V-A1, V-K2, V-K6). -/
theorem test_assemble_data :
    (AsmData.hex ['1', '1', 'e', '2', 'F', 'f']).bytes = some [0x11#8, 0xE2#8, 0xFF#8] ∧
    (AsmData.hex ['1', '1', 'e']).bytes = none ∧ (AsmData.ascii ['a', 'b']).bytes = some [0x61#8, 0x62#8] ∧
    (AsmData.repeated 3 0x61).bytes = some [0x61#8, 0x61#8, 0x61#8] := by decide

/-- Lines of V-I1, V-A1, V-K6, V-K2, V-I10, and an unsupported security level. -/
theorem test_read_lines :
    readLine "INIT 136, 0x01 ; status" = some [.init 136 1] ∧
    readLine "ABSORB hex:112233" = some [.absorb [0x11#8, 0x22#8, 0x33#8]] ∧
    readLine "ABSORB 3 * 0x61" = some [.absorb [0x61#8, 0x61#8, 0x61#8]] ∧
    readLine "ABSORB \"a\"" = some [.absorb [0x61#8]] ∧ readLine ".word 0x01018801" = some [.word 0x01018801] ∧
    readLine "  INIT384 " = some [.initLevel 384] ∧ readLine "; rst" = some [] ∧ readLine "INIT257" = none ∧
    readLine "INIT 256, 1" = none ∧ readLine "FINALIZE 16777216" = none := by
  decide +kernel

/-! ### INIT -/

/-- V-I1, through the fetch from reset. -/
theorem test_init_from_reset :
    after (step (State.reset.withFetchWord 32 0x01008801)) (fun t => t.status == 0x01008801#32 && t.cmd == []) = true := by
  decide +kernel
/-- V-X11: a bad rate leaves the instance that is there. -/
theorem test_init_bad_rate :
    after (exec (.init 0 0x01) (fresh 136#8 0x01#8)) (fun t => t.status == 0x0D008801#32) = true := by decide +kernel
/-! ### ABSORB -/

/-- V-A3: the block fills inside the command. -/
theorem test_absorb_crosses_block :
    after (absorbWith toyP 2 { roomForOne with din := [0x44#8, 0x55#8] })
      (fun t => t.status == 0x01010401#32 && t.mem.lanes == lanes2 0x0000000088664477 0x0000000044332211 &&
        t.perm == [lanes2 0x0000000044332211 0]) = true := by
  decide +kernel

/-! ### FINALIZE -/

/-- V-F1: padding on a permuted block, two output blocks. -/
theorem test_finalize_two_blocks :
    after (finalizeWith toyP 6 permutedOnce)
      (fun t => t.status == 0x03020401#32 && t.dout == [0xff#8, 0xa8#8, 0xff#8, 0x54#8, 0x89#8, 0x14#8] &&
        t.mem.lanes == lanes2 0x00000000a1991489 0x0000000054ffa8ff &&
        t.perm == [lanes2 0x0000000008664577 0x0000000044332211, lanes2 0x0000000054ffa8ff 0x0000000008664577]) =
      true := by
  decide +kernel
/-- V-K1: Keccak-256 of the empty message, with the machine's permutation; its first eight and its last byte. -/
theorem test_finalize_keccak256_empty :
    after (exec (.finalize 32) (fresh 136#8 0x01#8))
      (fun t => t.status == 0x03208801#32 && t.perm.length == 1 && t.dout.length == 32 &&
        t.dout.take 8 == [0xc5#8, 0xd2#8, 0x46#8, 0x01#8, 0x86#8, 0xf7#8, 0x23#8, 0x3c#8] &&
        t.dout.getLast? == some 0x70#8) = true := by
  decide +kernel

/-- Lanes five to a line, each line as the one number its 80 hexadecimal digits are (43_permutation_port.md R115). -/
def linesOfFive : List Lane → List Nat
  | a :: b :: c' :: d :: e :: rest => (a ++ b ++ c' ++ d ++ e).toNat :: linesOfFive rest
  | _ => []

/-- V-P1: the first check value of 43_permutation_port.md R115, line by line. -/
theorem test_keccak_of_zero :
    linesOfFive (keccakF1600 (Vector.replicate 25 0#64)).toList =
      [0xf1258f7940e1dde784d5ccf933c0478ad598261ea65aa9eebd1547306f80494d8b284e056253d057,
       0xff97a42d7f8e6fd490fee5a0a44647c48c5bda0cd6192e76ad30a6f71b19059c30935ab7d08ffc64,
       0xeb5aa93f2317d635a9a6e6260d71210381a57c16dbcf555f43b831cd0347c82601f22f1a11a5569f,
       0x05e5635a21d9ae6164befef28cc970f2613670957bc46611b87c5a554fd00ecb8c3ee88a1ccf32c8,
       0x940c7922ae3a26141841f924a2c509e416f53526e70465c275f644e97f30a13beaf1ff7b5ceca249] := by
  decide +kernel

/-! ### Faults, reset, waiting -/

/-- V-X1's last command: ABSORB of a consumed instance; `din` keeps its byte. -/
theorem test_use_after_finalize :
    after (exec (.absorb 1) { fresh 136#8 0x01#8 with phase := .consumed, offset := 32#8, din := [0x61#8] })
      (fun t => t.status == 0x17208801#32 && t.din == [0x61#8]) = true := by
  decide +kernel
/-- V-I11: IllegalCommand wins over BadRate. -/
theorem test_illegal_command :
    after (step (State.reset.withFetchWord 32 0x0101C901)) (fun t => t.status == 0x24000000#32) = true := by
  decide +kernel
/-- V-X8: halted, the word stays. -/
theorem test_halted : after (step halted) (fun t => t == halted) = true := by decide +kernel
/-- V-X10: reset ends a fault. -/
theorem test_reset_ends_fault : after (step halted.assertRst) (fun t => t == State.reset) = true := by decide +kernel
/-- 70_reset_and_hazards.md R141: the payload is not there yet. -/
theorem test_absorb_waits : after (exec (.absorb 1) roomForOne) (fun t => t == roomForOne) = true := by
  decide +kernel

/-- 00_scope.md R9(a): bytes the host has taken stay part of the sequence delivered. -/
theorem test_taken_bytes_stay_observed :
    (consumed.takeDout 1).1 = [0x89#8] ∧ (consumed.takeDout 1).2.dout = [0x14#8] ∧
    (consumed.takeDout 1).2.observe.delivered = [0x89#8, 0x14#8] := by decide

/-! ### Two engines -/

/-- V-K10: a step of the second leaves the first. -/
theorem test_second_engine_steps :
    (match stepEngine 1 [roomForOne, State.reset.sendCmd 0x01008801#32] with
      | .next [a, b] => a == roomForOne && b.status == 0x01008801#32
      | _ => false) = true := by
  decide +kernel

/-! ### The hypotheses of the obligations are met -/

theorem witness_OperandsAreUnsignedFields :
    decode 0x0100FFFF#32 = .ok (.init 255 255) ∧ decode 0x02FFFFFF#32 = .ok (.absorb 16777215) ∧
    decode 0x03FFFFFF#32 = .ok (.finalize 16777215) := by decide

theorem witness_StepRunsDecodedCommand :
    ∃ (s : State) (w : Word) (rest : List Word) (i : Instr),
      s.rst = false ∧ s.fault = false ∧ s.cmd = w :: rest ∧ decode w = .ok i ∧ i.wellFormed = true :=
  ⟨roomForOne.sendCmd 0x02000001#32, 0x02000001#32, [], .absorb 1, by decide⟩

theorem witness_ResetGivesSpecifiedValues : halted.assertRst.rst = true := by decide

theorem witness_HaltedEngineDoesNothing : halted.fault = true ∧ halted.rst = false := by decide

theorem witness_EngineWaits_no_command : roomForOne.rst = false ∧ roomForOne.cmd = [] := by decide

/-- One byte of two is there. -/
def shortOfOne : State := { roomForOne with din := [0x44#8], cmd := [0x02000002#32] }

theorem witness_EngineWaits_no_payload :
    shortOfOne.rst = false ∧ shortOfOne.fault = false ∧ shortOfOne.phase = .absorbing ∧ shortOfOne.cursorInBlock ∧
    shortOfOne.cmd = 0x02000002#32 :: [] ∧ decode 0x02000002#32 = .ok (.absorb 2) ∧
    shortOfOne.din.length < (2#24).toNat := by decide

theorem witness_Inv_idle : State.reset.Inv := by decide
theorem witness_Inv_absorbing : roomForOne.Inv ∧ roomForOne.phase = .absorbing := by decide
theorem witness_Inv_consumed : consumed.Inv ∧ consumed.phase = .consumed := by decide
theorem witness_Inv_halted : halted.Inv ∧ halted.fault = true := by decide

theorem witness_StepKeepsInvariants :
    ∃ s t : State, s.Inv ∧ step s = .next t ∧ t.phase = .absorbing ∧ s.phase = .consumed :=
  let ⟨t, h, h'⟩ := exists_of_after (o := step (consumed.pushCmd 0x01008801#32))
    (f := fun t => decide (t.phase = .absorbing)) (by decide +kernel)
  ⟨_, t, by decide, h, of_decide_eq_true h', rfl⟩

theorem witness_StepKeepsMemoryCanonical :
    ∃ s t : State, s.mem.wf ∧ step s = .next t ∧ t.mem = [(0, 0x11#8), (1, 0x22#8), (3, 0x80#8)] :=
  let ⟨t, h, h'⟩ := exists_of_after
    (o := step { roomForOne with rate := 5#8, offset := 2#8, cmd := [0x02000002#32], din := [0x33#8, 0x80#8] })
    (f := fun t => decide (t.mem = [(0, 0x11#8), (1, 0x22#8), (3, 0x80#8)])) (by decide +kernel)
  ⟨_, t, by decide, h, of_decide_eq_true h'⟩

theorem witness_InitConstructsOrRaisesBadRate :
    consumed.fault = false ∧ rateAccepted 1#8 ∧ rateAccepted 200#8 ∧
    ((0#8).toNat = 0 ∨ 201 ≤ (0#8).toNat) ∧ ((201#8).toNat = 0 ∨ 201 ≤ (201#8).toNat) := by decide

theorem witness_InitCompletes :
    consumed.fault = false ∧ (1 ≤ (1#8).toNat ∧ (1#8).toNat ≤ 200) ∧ 1 ≤ (200#8).toNat ∧ (200#8).toNat ≤ 200 := by
  decide

theorem witness_InitForgetsTheStateBefore :
    consumed.Inv ∧ consumed.fault = false ∧ 1 ≤ (200#8).toNat ∧ (200#8).toNat ≤ 200 := by decide

theorem witness_InitFrame_accepted :
    ∃ t, exec (.init 1 0xFF) roomForOne = .next t ∧ t.fault = false :=
  let ⟨t, h, h'⟩ := exists_of_after (o := exec (.init 1 0xFF) roomForOne) (f := fun t => t.fault == false)
    (by decide +kernel)
  ⟨t, h, by simpa using h'⟩

theorem witness_InitFrame_faulting :
    ∃ t, exec (.init 201 0xFF) roomForOne = .next t ∧ t.fault = true :=
  let ⟨t, h, h'⟩ := exists_of_after (o := exec (.init 201 0xFF) roomForOne) (f := fun t => t.fault) (by decide +kernel)
  ⟨t, h, h'⟩

/-- For AbsorbCompletes, AbsorbFillingBlockPermutesAtOnce and AbsorbEqualsByteSerialForm: exactly the payload of one
byte is there, and it fills the block. -/
def oneToFill : State := { roomForOne with din := [0x44#8] }

theorem witness_AbsorbFillingBlock :
    oneToFill.mem.wf ∧ oneToFill.fault = false ∧ oneToFill.phase = .absorbing ∧ oneToFill.cursorInBlock ∧
    (1#24).toNat ≤ oneToFill.din.length ∧
    oneToFill.offset.toNat + (1#24).toNat = oneToFill.rate.toNat := by decide

/-- For AbsorbWithRoomXorsItsBytes: the block is left one byte short; and an empty ABSORB. -/
def oneToSpare : State := { roomForOne with rate := 200#8, offset := 198#8, din := [0x44#8] }

theorem witness_AbsorbWithRoom :
    oneToSpare.mem.wf ∧ oneToSpare.fault = false ∧ oneToSpare.phase = .absorbing ∧ oneToSpare.cursorInBlock ∧
    (1#24).toNat ≤ oneToSpare.din.length ∧ (0#24).toNat ≤ oneToSpare.din.length ∧
    oneToSpare.offset.toNat + (1#24).toNat < oneToSpare.rate.toNat ∧
    oneToSpare.offset.toNat + (0#24).toNat < oneToSpare.rate.toNat := by decide

theorem witness_AbsorbOfNothing : roomForOne.Inv ∧ roomForOne.fault = false ∧ roomForOne.phase = .absorbing := by
  decide

/-- A message of five split as 1 + 0 + 4, over a block boundary. -/
theorem witness_AbsorbSplitsAgree :
    ∃ (s : State) (lens : List Len) (total : Len), s.fault = false ∧ s.phase = .absorbing ∧ s.cursorInBlock ∧
      s.cnt = 0#24 ∧ (lens.map BitVec.toNat).sum = total.toNat ∧ total.toNat ≤ s.din.length :=
  ⟨{ roomForOne with din := [1#8, 2#8, 3#8, 4#8, 5#8] }, [1#24, 0#24, 4#24], 5#24, by decide⟩

theorem witness_AbsorbFrame_room :
    ∃ t, oneToSpare.Inv ∧ exec (.absorb 1) oneToSpare = .next t ∧ t.fault = false ∧ t.perm = oneToSpare.perm :=
  let ⟨t, h, h'⟩ := exists_of_after (o := exec (.absorb 1) oneToSpare)
    (f := fun t => decide (t.fault = false ∧ t.perm = oneToSpare.perm)) (by decide +kernel)
  ⟨t, by decide, h, of_decide_eq_true h'⟩

theorem witness_AbsorbFrame_faulting :
    ∃ t, consumed.Inv ∧ exec (.absorb 1) consumed = .next t ∧ t.fault = true :=
  let ⟨t, h, h'⟩ := exists_of_after (o := exec (.absorb 1) consumed) (f := fun t => t.fault) (by decide +kernel)
  ⟨t, by decide, h, h'⟩

theorem zeroTail_roomForOne : roomForOne.zeroTail := by
  intro a ha
  refine read_of_not_listed fun c hc => ?_
  have h : c.1 < 3 := (by decide : ∀ c ∈ roomForOne.mem, c.1 < 3) c hc
  have : 3 ≤ a := ha
  omega

theorem witness_TailIsZero_init :
    ∃ t, consumed.fault = false ∧ exec (.init 200 0x01) consumed = .next t ∧ t.fault = false :=
  let ⟨t, h, h'⟩ := exists_of_after (o := exec (.init 200 0x01) consumed) (f := fun t => t.fault == false)
    (by decide +kernel)
  ⟨t, rfl, h, by simpa using h'⟩

theorem witness_TailIsZero_absorb :
    ∃ t, { roomForOne with rate := 5#8, din := [0x44#8] }.Inv ∧
      { roomForOne with rate := 5#8, din := [0x44#8] }.phase = .absorbing ∧
      { roomForOne with rate := 5#8, din := [0x44#8] }.zeroTail ∧
      exec (.absorb 1) { roomForOne with rate := 5#8, din := [0x44#8] } = .next t ∧ t.perm = [] :=
  let ⟨t, h, h'⟩ := exists_of_after (o := exec (.absorb 1) { roomForOne with rate := 5#8, din := [0x44#8] })
    (f := fun t => decide (t.perm = [])) (by decide +kernel)
  ⟨t, by decide, rfl, zeroTail_roomForOne, h, of_decide_eq_true h'⟩

/-- For FinalizeCompletes, FinalizePadsTwoBytes and SqueezeEqualsByteSerialForm: the two padding bytes meet
(`roomForOne`, `fresh 1`) and do not meet (`permutedOnce`); for FinalizeWithinOneBlock: no byte and a full block. -/
theorem witness_Finalize :
    (∀ s ∈ [roomForOne, fresh 1#8 0x80#8, fresh 200#8 0x1F#8],
      s.mem.wf ∧ s.fault = false ∧ s.phase = .absorbing ∧ s.cursorInBlock) ∧
    (0#24).toNat ≤ roomForOne.rate.toNat ∧ (4#24).toNat ≤ roomForOne.rate.toNat ∧
    roomForOne.offset.toNat = roomForOne.rate.toNat - 1 ∧
    (fresh 200#8 0x1F#8).offset.toNat ≠ (fresh 200#8 0x1F#8).rate.toNat - 1 := by decide

/-- A shorter output of one block, a longer one of two. -/
theorem witness_OutputIsBeginningOfLongerOutput :
    roomForOne.fault = false ∧ roomForOne.phase = .absorbing ∧ roomForOne.cursorInBlock ∧
    (4#24).toNat ≤ (5#24).toNat := by decide

/-- A message of five in two ABSORBs, one payload byte more than it takes, on a consumed engine. -/
theorem witness_HashIsTheSpongeFunction :
    ∃ (s : State) (rate : Byte) (m rest : List Byte) (lens : List Len),
      s.fault = false ∧ 1 ≤ rate.toNat ∧ rate.toNat ≤ 200 ∧ s.din = m ++ rest ∧
      (lens.map BitVec.toNat).sum = m.length :=
  ⟨{ consumed with din := [1#8, 2#8, 3#8, 4#8, 5#8, 6#8] }, 4#8, [1#8, 2#8, 3#8, 4#8, 5#8], [6#8], [4#24, 1#24],
    by decide⟩

theorem witness_FinalizeFrame_run :
    ∃ t, roomForOne.Inv ∧ exec (.finalize 5) roomForOne = .next t ∧ t.fault = false :=
  ⟨finalized Config.P 5 roomForOne, by decide, exec_finalize_run (by decide) (by decide) (by decide), by
    rw [finalized_eq]; exact (rfl : roomForOne.fault = false)⟩

theorem witness_FinalizeFrame_faulting :
    ∃ t, consumed.Inv ∧ exec (.finalize 5) consumed = .next t ∧ t.fault = true :=
  let ⟨t, h, h'⟩ := exists_of_after (o := exec (.finalize 5) consumed) (f := fun t => t.fault) (by decide +kernel)
  ⟨t, by decide, h, h'⟩

/-- The words of IllegalWordRaisesIllegalCommand's first clause. -/
def illegalWord (w : Word) : Bool :=
  decide (w.toNat / 2 ^ 24 = 0 ∨ 4 ≤ w.toNat / 2 ^ 24 ∨ (w.toNat / 2 ^ 24 = 1 ∧ w.toNat / 2 ^ 16 % 2 ^ 8 ≠ 0))

/-- The first and the last word of each illegal range, and the legal words beside them. -/
theorem witness_IllegalWord :
    [0x00000000#32, 0x00FFFFFF#32, 0x01010000#32, 0x01FFFFFF#32, 0x04000000#32, 0xFFFFFFFF#32].all illegalWord = true ∧
    [0x01000000#32, 0x0100FFFF#32, 0x02000000#32, 0x03FFFFFF#32].any illegalWord = false ∧
    (consumed.pushCmd 0x00FFFFFF#32).rst = false ∧ (consumed.pushCmd 0x00FFFFFF#32).fault = false ∧
    (consumed.pushCmd 0x00FFFFFF#32).cmd = 0x00FFFFFF#32 :: [] := by decide

theorem witness_WrongPhase :
    State.reset.fault = false ∧ State.reset.phase = .idle ∧ consumed.fault = false ∧ consumed.phase = .consumed := by
  decide

/-- Also for the second clauses of OnlyResetEndsAFault and PhaseTransitionTable. -/
theorem witness_FaultCauseFollowsPriority_halted :
    ∃ t, halted.fault = true ∧ halted.rst = false ∧ step halted = .next t :=
  let ⟨t, h, _⟩ := exists_of_after (o := step halted) (f := fun _ => true) (by decide +kernel)
  ⟨t, rfl, rfl, h⟩

/-- A word that fails two checks (V-I11). -/
def twiceWrong : State := State.reset.sendCmd 0x0101C901#32

theorem witness_FaultCauseFollowsPriority :
    ∃ t, twiceWrong.rst = false ∧ twiceWrong.fault = false ∧ twiceWrong.cause = .none ∧
      twiceWrong.cmd = 0x0101C901#32 :: [] ∧ step twiceWrong = .next t :=
  let ⟨t, h, _⟩ := exists_of_after (o := step twiceWrong) (f := fun _ => true) (by decide +kernel)
  ⟨t, rfl, rfl, rfl, rfl, h⟩

theorem witness_FaultEntryChangesNothingElse :
    ∃ t, step twiceWrong = .next t ∧ twiceWrong.fault = false ∧ t.fault = true :=
  let ⟨t, h, h'⟩ := exists_of_after (o := step twiceWrong) (f := fun t => t.fault) (by decide +kernel)
  ⟨t, h, rfl, h'⟩

theorem witness_OnlyResetEndsAFault :
    ∃ t, step halted.assertRst = .next t ∧ halted.assertRst.fault = true ∧ t.fault = false :=
  let ⟨t, h, h'⟩ := exists_of_after (o := step halted.assertRst) (f := fun t => t.fault == false) (by decide +kernel)
  ⟨t, h, rfl, by simpa using h'⟩

/-- A step of the word `w` from `s` has a next state, and the word is a command. -/
def runs (s : State) (w : Word) : Bool :=
  (decode w).toOption.isSome && !s.rst && !s.fault && after (step (s.pushCmd w)) fun _ => true

/-- For PhaseTransitionTable and the rules over all steps: INIT accepted and not, ABSORB and FINALIZE in IDLE, and in
CONSUMED, and ABSORB in ABSORBING. -/
theorem witness_commands_step :
    (runs State.reset 0x01000101#32 && runs roomForOne 0x0100C801#32 && runs roomForOne 0x0100C901#32 &&
      runs State.reset 0x02000001#32 && runs State.reset 0x03000001#32 && runs consumed 0x02000001#32 &&
      runs consumed 0x03000001#32 && runs oneToSpare 0x02000001#32 && runs shortOfOne 0x02000002#32) = true := by
  decide +kernel

/-- For the rules over all steps, FINALIZE in ABSORBING. -/
theorem witness_finalize_steps :
    ∃ t, step (roomForOne.pushCmd 0x03000005#32) = .next t ∧ (roomForOne.pushCmd 0x03000005#32).rst = false ∧
      (roomForOne.pushCmd 0x03000005#32).fault = false ∧ t.fault = false ∧
      decode 0x03000005#32 = .ok (.finalize 5) ∧ t.phase = .consumed :=
  ⟨finalized Config.P 5 (roomForOne.pushCmd 0x03000005#32),
    stepBy_next.2 (.inr ⟨rfl, .inr ⟨rfl, .inr (.inr ⟨_, _, .finalize 5, rfl, by decide,
      exec_finalize_run (by decide) (by decide) (by decide)⟩)⟩⟩),
    rfl, rfl, by rw [finalized_eq]; decide, by decide, by rw [finalized_eq]⟩

/-- Other bytes, another delimiter, the same shape. -/
theorem witness_ControlDoesNotDependOnData :
    ∃ t, oneToSpare.shape = { oneToSpare with mem := [], delimiter := 0x1F#8, din := [0x00#8] }.shape ∧
      step (oneToSpare.pushCmd 0x02000001#32) = .next t :=
  let ⟨t, h, _⟩ := exists_of_after (o := step (oneToSpare.pushCmd 0x02000001#32)) (f := fun _ => true)
    (by decide +kernel)
  ⟨t, by decide, h⟩

/-- Another history, the same instance. -/
theorem witness_FinalizeReadsOnlyTheInstance :
    ∃ s s' t : State, s.mem = s'.mem ∧ s.rate = s'.rate ∧ s.delimiter = s'.delimiter ∧ s.offset = s'.offset ∧
      s.phase = .absorbing ∧ s'.phase = .absorbing ∧ s.fault = false ∧ s'.fault = false ∧ s.dout ≠ s'.dout ∧
      execWith toyP (.finalize 5) s = .next t :=
  ⟨roomForOne, { roomForOne with dout := [1#8], din := [2#8] }, _, rfl, rfl, rfl, rfl, rfl, rfl, rfl, rfl, by decide,
    finalizeWith_run (by decide) (by decide) (by decide)⟩

/-- A command that is accepted, takes a byte and is recorded with it; and the exec clause on the same command. -/
theorem witness_ObservationRecordsWhatIsAccepted :
    ∃ t, (oneToSpare.pushCmd 0x02000001#32).rst = false ∧ step (oneToSpare.pushCmd 0x02000001#32) = .next t ∧
      exec (.absorb 1) (oneToSpare.pushCmd 0x02000001#32) = .next t ∧
      (oneToSpare.pushCmd 0x02000001#32).fault = false ∧ t.fault = false ∧ t ≠ oneToSpare.pushCmd 0x02000001#32 ∧
      t.observe.commands = [.absorb 1] ∧ t.observe.payload = [0x44#8] :=
  let ⟨t, h, h'⟩ := exists_of_after (o := step (oneToSpare.pushCmd 0x02000001#32))
    (f := fun t => decide (t.fault = false ∧ t ≠ oneToSpare.pushCmd 0x02000001#32 ∧
      t.observe.commands = [.absorb 1] ∧ t.observe.payload = [0x44#8])) (by decide +kernel)
  ⟨t, rfl, h, h, rfl, of_decide_eq_true h'⟩

theorem witness_EnginesAreIndependent :
    ∃ a b, 0 ≠ 1 ∧ stepEngine 0 [twiceWrong, halted] = .next a ∧ stepEngine 1 [twiceWrong, halted] = .next b ∧
      [twiceWrong, halted][1]? = some halted :=
  ⟨_, _, by decide, rfl, rfl, rfl⟩

theorem witness_LanesAreLittleEndianBytes : (0 < 25 ∧ 24 < 25) ∧ (0 < 200 ∧ 199 < 200) := by decide

theorem witness_AssembledLinesDecode :
    (AsmLine.init 255 0).wellFormed = true ∧ (AsmLine.absorb []).wellFormed = true ∧
    (AsmLine.finalize 16777215).wellFormed = true := by decide

theorem witness_UpdateSendsItsDataWhole :
    ⟨0x02000001#32, [0x61#8]⟩ ∈ (AsmLine.update [0x61#8]).assemble ∧ [0x61#8].length ≤ 16777215 := by decide

end Sys2Proof.Tests
end

