-- ==== Sys2Proof/Proofs/Scope.lean ====
section
/-! The obligations of 00_scope.md: what the outside observes (R9), and the machine as the engine at its permutation
(R6). -/

namespace Sys2Proof.Proofs

open Sys2Proof.Machine Sys2Proof.Laws

variable {s t : State}

/-! ### What the host does at the ports (R9) -/

/-- Bytes the host takes stay delivered: they go from `dout` to the record in order (20_memory.md R43). -/
@[simp] theorem takeDout_delivered (s : State) (n : Nat) : (s.takeDout n).2.delivered = s.delivered := by
  simp [State.takeDout, State.delivered, List.append_assoc]

theorem takeDout_observe (s : State) (n : Nat) : (s.takeDout n).2.observe = s.observe := by
  rw [State.observe, takeDout_delivered]
  rfl

@[simp] theorem sendCmd_observe (s : State) (w : Word) : (s.sendCmd w).observe = s.observe := rfl

@[simp] theorem sendDin_observe (s : State) (bs : List Byte) : (s.sendDin bs).observe = s.observe := rfl

theorem assertRst_observe (s : State) : s.assertRst.observe = s.observe := rfl

/-- Commands sent one after another, each with its payload, change nothing observed. -/
theorem sendAll_observe (cs : List Sent) (s : State) :
    (cs.foldl (fun s c => (s.sendCmd c.word).sendDin c.payload) s).observe = s.observe := by
  induction cs generalizing s with
  | nil => rfl
  | cons c cs ih => rw [List.foldl_cons, ih, sendDin_observe, sendCmd_observe]

theorem sendLine_observe (s : State) (l : AsmLine) : (s.sendLine l).observe = s.observe :=
  sendAll_observe l.assemble s

/-- Settles O57: `dout` moves to the record of what was taken, and the inputs are no part of the observation. -/
theorem hostActionsKeepObservation : Obligations.HostActionsKeepObservation := fun s =>
  ⟨takeDout_observe s, sendCmd_observe s, sendDin_observe s, sendLine_observe s, assertRst_observe s⟩

/-! ### The machine is the engine at its permutation (R6) -/

theorem exec_eq : exec = execWith Config.P := funext₂ exec_eq_execWith

theorem step_eq_stepWith (s : State) : step s = stepWith Config.P s := by
  rw [step, stepWith, exec_eq]

/-- Settles O7: the two engines take the same step because they run the same commands. -/
theorem stepIsTheEngineAtItsPermutation : Obligations.StepIsTheEngineAtItsPermutation :=
  ⟨exec_eq_execWith, step_eq_stepWith, rfl⟩

/-! ### What a step adds to the record (R9) -/

/-- From `s` to `t` the channels and histories only moved on: bytes of `din` went to the record of what was taken, bytes
joined `dout`, permutations joined the trace, and the host took nothing (00_scope.md R9(a), (b), (d)). -/
structure HistoryExtends (s t : State) : Prop where
  din : t.dinTaken ++ t.din = s.dinTaken ++ s.din
  dinTaken : ∃ bytes, t.dinTaken = s.dinTaken ++ bytes
  doutTaken : t.doutTaken = s.doutTaken
  dout : ∃ out, t.dout = s.dout ++ out
  perm : ∃ calls, t.perm = s.perm ++ calls

/-- From `s` to `t` the command `i` was accepted: its word taken and the command recorded, with no fault. -/
structure Accepts (i : Instr) (s t : State) : Prop where
  fault : t.fault = s.fault
  cmd : t.cmd = s.cmd.tail
  accepted : t.accepted = s.accepted ++ [i]
  history : HistoryExtends s t

theorem HistoryExtends.of_eq (hdin : t.din = s.din) (hdinTaken : t.dinTaken = s.dinTaken)
    (hdout : t.dout = s.dout) (hdoutTaken : t.doutTaken = s.doutTaken) (hperm : t.perm = s.perm) :
    HistoryExtends s t :=
  ⟨by rw [hdin, hdinTaken], ⟨[], by simp [hdinTaken]⟩, hdoutTaken, ⟨[], by simp [hdout]⟩, ⟨[], by simp [hperm]⟩⟩

theorem HistoryExtends.refl (s : State) : HistoryExtends s s := .of_eq rfl rfl rfl rfl rfl

theorem HistoryExtends.raise (s : State) (c : Cause) : HistoryExtends s (s.takeCmd.raise c) :=
  .of_eq rfl rfl rfl rfl rfl

theorem accepts_construct (s : State) (rate delim : Byte) :
    Accepts (.init rate delim) s ((s.accept (.init rate delim)).construct rate delim) :=
  ⟨rfl, rfl, rfl, .of_eq rfl rfl rfl rfl rfl⟩

theorem absorbed_perm_extends (P : Lanes → Lanes) (len : Len) (s : State) :
    ∃ calls, (absorbed P len s).perm = s.perm ++ calls :=
  absorbSerial_perm_extends (s.din.take len.toNat) (s.accept (.absorb len))

theorem accepts_absorbed (P : Lanes → Lanes) (len : Len) (s : State) :
    Accepts (.absorb len) s (absorbed P len s) := by
  have hperm := absorbed_perm_extends P len s
  rw [absorbed_eq]
  exact ⟨rfl, rfl, rfl, by simp [List.append_assoc], ⟨_, rfl⟩, rfl, ⟨[], by simp⟩, hperm⟩

theorem accepts_finalized (P : Lanes → Lanes) (outlen : Len) (s : State) :
    Accepts (.finalize outlen) s (finalized P outlen s) := by
  have hdout := finalized_dout_extends P outlen s
  obtain ⟨calls, hperm⟩ := finalized_perm_first P outlen s
  rw [finalized_eq]
  exact ⟨rfl, rfl, rfl, rfl, ⟨[], by simp⟩, rfl, hdout, ⟨_, hperm⟩⟩

/-- What a command can answer: nothing happened, a fault was taken, or the command was accepted. -/
theorem exec_cases {i : Instr} (h : exec i s = .next t) :
    t = s ∨ (∃ c, t = s.takeCmd.raise c) ∨ Accepts i s t := by
  cases i with
  | init rate delim =>
    obtain ⟨-, rfl⟩ | ⟨-, -, rfl⟩ | ⟨-, -, rfl⟩ := exec_init_next h
    · exact .inl rfl
    · exact .inr (.inr (accepts_construct s rate delim))
    · exact .inr (.inl ⟨_, rfl⟩)
  | absorb len =>
    obtain ⟨-, rfl⟩ | ⟨-, -, rfl⟩ | ⟨-, -, rfl⟩ | ⟨-, -, -, -, rfl⟩ | ⟨-, -, -, -, rfl⟩ := exec_absorb_next h
    · exact .inl rfl
    · exact .inr (.inl ⟨_, rfl⟩)
    · exact .inr (.inl ⟨_, rfl⟩)
    · exact .inl rfl
    · exact .inr (.inr (accepts_absorbed Config.P len s))
  | finalize outlen =>
    obtain ⟨-, rfl⟩ | ⟨-, -, rfl⟩ | ⟨-, -, rfl⟩ | ⟨-, -, -, rfl⟩ := exec_finalize_next h
    · exact .inl rfl
    · exact .inr (.inl ⟨_, rfl⟩)
    · exact .inr (.inl ⟨_, rfl⟩)
    · exact .inr (.inr (accepts_finalized Config.P outlen s))

/-- What a step without a reset can answer: nothing happened, a fault was taken, or the command at the head of `cmd`
was accepted. -/
theorem step_cases (hr : s.rst = false) (h : step s = .next t) :
    t = s ∨ (∃ c, t = s.takeCmd.raise c) ∨
      ∃ w rest i, s.cmd = w :: rest ∧ decode w = .ok i ∧ s.fault = false ∧ Accepts i s t := by
  obtain ⟨hr', -⟩ | ⟨-, ⟨-, rfl⟩ | ⟨hf, ⟨-, rfl⟩ | ⟨w, rest, e, -, -, rfl⟩ | ⟨w, rest, i, hc, hd, hx⟩⟩⟩ :=
    stepBy_next.1 h
  · rw [hr] at hr'; cases hr'
  · exact .inl rfl
  · exact .inl rfl
  · exact .inr (.inl ⟨_, rfl⟩)
  · obtain ht | ht | ha := exec_cases hx
    · exact .inl ht
    · exact .inr (.inl ht)
    · exact .inr (.inr ⟨w, rest, i, hc, hd, hf, ha⟩)

theorem step_historyExtends (hr : s.rst = false) (h : step s = .next t) : HistoryExtends s t := by
  obtain rfl | ⟨c, rfl⟩ | ⟨w, rest, i, -, -, -, ha⟩ := step_cases hr h
  · exact .refl t
  · exact .raise s c
  · exact ha.history

theorem step_accepted (hr : s.rst = false) (h : step s = .next t) :
    t.accepted = s.accepted ∨
      ∃ w rest i, s.cmd = w :: rest ∧ decode w = .ok i ∧ t.cmd = rest ∧ s.fault = false ∧ t.fault = false ∧
        t.accepted = s.accepted ++ [i] := by
  obtain rfl | ⟨c, rfl⟩ | ⟨w, rest, i, hc, hd, hf, ha⟩ := step_cases hr h
  · exact .inl rfl
  · exact .inl rfl
  · exact .inr ⟨w, rest, i, hc, hd, by rw [ha.cmd, hc, List.tail_cons], hf, ha.fault.trans hf, ha.accepted⟩

theorem exec_accepted {i : Instr} (h : exec i s = .next t) (hf : t.fault = false) (hne : t ≠ s) :
    t.accepted = s.accepted ++ [i] := by
  obtain rfl | ⟨c, rfl⟩ | ha := exec_cases h
  · exact absurd rfl hne
  · cases hf
  · exact ha.accepted

theorem HistoryExtends.delivered (h : HistoryExtends s t) :
    ∃ out, t.delivered = s.delivered ++ out ∧ t.dout = s.dout ++ out := by
  obtain ⟨out, ho⟩ := h.dout
  exact ⟨out, by rw [State.delivered, State.delivered, h.doutTaken, ho, List.append_assoc], ho⟩

/-- Settles O56: every step waits, faults or accepts the command at the head of `cmd`, and each only adds to the
record. -/
theorem observationRecordsWhatIsAccepted : Obligations.ObservationRecordsWhatIsAccepted := by
  refine ⟨fun s t hr h => ?_, fun s t i _ h hf hne => exec_accepted h hf hne⟩
  have hx := step_historyExtends hr h
  exact ⟨hx.din, hx.doutTaken, hx.delivered, hx.perm, hx.dinTaken, step_accepted hr h⟩

end Sys2Proof.Proofs
end

