-- ==== Sys2Proof/Proofs/State.lean ====
section
/-! The obligations of 10_state.md: the values after reset (R24), the invariants between commands (R23), the transition
table of `phase` (R17), what INIT makes of any state (R25), and the status word (R22). -/

namespace Sys2Proof.Proofs

open Sys2Proof.Machine Sys2Proof.Laws

variable {s t : State}

/-! ### Registers the two long commands leave alone -/

@[simp] theorem absorbed_phase (P : Lanes → Lanes) (len : Len) (s : State) : (absorbed P len s).phase = s.phase := by
  rw [absorbed_eq]

@[simp] theorem absorbed_fault (P : Lanes → Lanes) (len : Len) (s : State) : (absorbed P len s).fault = s.fault := by
  rw [absorbed_eq]

@[simp] theorem absorbed_cause (P : Lanes → Lanes) (len : Len) (s : State) : (absorbed P len s).cause = s.cause := by
  rw [absorbed_eq]

@[simp] theorem finalized_rate (P : Lanes → Lanes) (outlen : Len) (s : State) :
    (finalized P outlen s).rate = s.rate := by
  rw [finalized_eq]

@[simp] theorem finalized_fault (P : Lanes → Lanes) (outlen : Len) (s : State) :
    (finalized P outlen s).fault = s.fault := by
  rw [finalized_eq]

@[simp] theorem finalized_cause (P : Lanes → Lanes) (outlen : Len) (s : State) :
    (finalized P outlen s).cause = s.cause := by
  rw [finalized_eq]

/-! ### One step, by its case -/

theorem step_of_rst (h : s.rst = true) : step s = .next State.reset := stepBy_next.2 (.inl ⟨h, rfl⟩)

theorem step_of_halted (hr : s.rst = false) (hf : s.fault = true) : step s = .next s :=
  stepBy_next.2 (.inr ⟨hr, .inl ⟨hf, rfl⟩⟩)

theorem step_of_cmd_nil (hr : s.rst = false) (hc : s.cmd = []) : step s = .next s := by
  simp [step, stepBy, hr, hc]

theorem step_of_illegal {w : Word} {rest : List Word} {e : Illegal} (hr : s.rst = false) (hf : s.fault = false)
    (hc : s.cmd = w :: rest) (hd : decode w = .error e) : step s = .next (s.takeCmd.raise .illegalCommand) := by
  simp [step, stepBy, hr, hf, hc, hd]

/-- With a command at the head of `cmd` the step is that command's effect (60_exceptions.md R127). -/
theorem step_of_decode {w : Word} {rest : List Word} {i : Instr} (hr : s.rst = false) (hf : s.fault = false)
    (hc : s.cmd = w :: rest) (hd : decode w = .ok i) : step s = exec i s := by
  simp [step, stepBy, hr, hf, hc, hd]

/-! ### The invariants hold after reset and are kept (R23) -/

/-- Settles O11: memory is empty, and the phase is IDLE with everything zero. -/
theorem resetSatisfiesInvariants : Obligations.ResetSatisfiesInvariants :=
  ⟨wf_zeroed, nofun, fun _ => ⟨rfl, rfl, rfl, rfl, rfl, rfl, rfl, rfl, rfl⟩, nofun, nofun, rfl, iff_of_true rfl rfl⟩

/-- Fault entry keeps the invariants: it records a cause and leaves the rest (60_exceptions.md R124). -/
theorem raise_inv {c : Cause} (h : s.Inv) (hc : c ≠ .none) : (s.takeCmd.raise c).Inv := by
  obtain ⟨hm, hsq, hidle, habs, hcon, hcnt, -⟩ := h
  exact ⟨hm, hsq, hidle, habs, hcon, hcnt, by simp [hc]⟩

theorem construct_inv {rate delim : Byte} (h : s.Inv) (hr : rateAccepted rate) :
    ((s.accept (.init rate delim)).construct rate delim).Inv := by
  obtain ⟨-, -, -, -, -, hcnt, hcause⟩ := h
  exact ⟨wf_zeroed, nofun, nofun, fun _ => ⟨hr, hr.1⟩, nofun, hcnt, hcause⟩

theorem absorbed_inv {P : Lanes → Lanes} {len : Len} (h : s.Inv) (hp : s.phase = .absorbing) :
    (absorbed P len s).Inv := by
  obtain ⟨hm, -, -, habs, -, -, hcause⟩ := h
  exact ⟨wf_absorbed hm (habs hp), by simp [hp], by simp [hp], fun _ => absorbed_cursor (habs hp), by simp [hp], rfl,
    by simpa using hcause⟩

/-- A FINALIZE leaves the cursor at the length of its last output block, so inside the rate (42_finalize.md R95). -/
theorem finalized_offset_le {P : Lanes → Lanes} {outlen : Len} (hc : s.cursorInBlock) :
    (finalized P outlen s).offset.toNat ≤ s.rate.toNat := by
  have hdiv := Nat.div_add_mod (outlen.toNat - 1) s.rate.toNat
  have hmod := Nat.mod_lt (outlen.toNat - 1) hc.1.1
  rw [(finalized_counts hc).1]
  omega

theorem finalized_inv {P : Lanes → Lanes} {outlen : Len} (h : s.Inv) (hp : s.phase = .absorbing) :
    (finalized P outlen s).Inv := by
  obtain ⟨-, -, -, habs, -, -, hcause⟩ := h
  have hoff := finalized_offset_le (P := P) (outlen := outlen) (habs hp)
  refine ⟨wf_finalized, nofun, nofun, nofun, fun _ => ?_, finalized_cnt P outlen s, by simpa using hcause⟩
  rw [finalized_rate]
  exact ⟨(habs hp).1, hoff⟩

/-- Every command keeps the invariants, whatever it answers. -/
theorem exec_inv {i : Instr} (hi : s.Inv) (h : exec i s = .next t) : t.Inv := by
  cases i with
  | init rate delim =>
    obtain ⟨-, rfl⟩ | ⟨-, hr, rfl⟩ | ⟨-, -, rfl⟩ := exec_init_next h
    · exact hi
    · exact construct_inv hi hr
    · exact raise_inv hi nofun
  | absorb len =>
    obtain ⟨-, rfl⟩ | ⟨-, -, rfl⟩ | ⟨-, -, rfl⟩ | ⟨-, -, -, -, rfl⟩ | ⟨-, hp, -, -, rfl⟩ := exec_absorb_next h
    · exact hi
    · exact raise_inv hi nofun
    · exact raise_inv hi nofun
    · exact hi
    · exact absorbed_inv hi hp
  | finalize outlen =>
    obtain ⟨-, rfl⟩ | ⟨-, -, rfl⟩ | ⟨-, -, rfl⟩ | ⟨-, hp, -, rfl⟩ := exec_finalize_next h
    · exact hi
    · exact raise_inv hi nofun
    · exact raise_inv hi nofun
    · exact finalized_inv hi hp

/-- Settles O12: a step resets, changes nothing, takes a fault, or runs a command, and each keeps the invariants. -/
theorem stepKeepsInvariants : Obligations.StepKeepsInvariants := by
  intro s t hi h
  obtain ⟨-, rfl⟩ | ⟨-, ⟨-, rfl⟩ | ⟨-, ⟨-, rfl⟩ | ⟨w, rest, e, -, -, rfl⟩ | ⟨w, rest, i, -, -, hx⟩⟩⟩ := stepBy_next.1 h
  · exact resetSatisfiesInvariants
  · exact hi
  · exact hi
  · exact raise_inv hi nofun
  · exact exec_inv hi hx

/-! ### The model's own stops are not met (R23) -/

theorem unlessHalted_total {effect : State → Host.Outcome State Fault Refusal} (h : ∃ t, effect s = .next t) :
    ∃ t, s.unlessHalted effect = .next t := by
  cases hf : s.fault with
  | true => exact ⟨s, unlessHalted_of_halted hf effect⟩
  | false => rwa [unlessHalted_of_running hf]

/-- Under the invariants neither stop of the phase check is met (assumption logs 9, 10). -/
theorem whenAbsorbing_total {effect : State → Host.Outcome State Fault Refusal} (hi : s.Inv)
    (h : ∃ t, effect s = .next t) : ∃ t, s.whenAbsorbing effect = .next t := by
  obtain ⟨-, hsq, -, habs, -⟩ := hi
  cases hp : s.phase with
  | idle => exact ⟨_, whenAbsorbing_of_idle hp effect⟩
  | absorbing => rwa [whenAbsorbing_of_absorbing hp (habs hp)]
  | squeezing => exact absurd hp hsq
  | consumed => exact ⟨_, whenAbsorbing_of_consumed hp effect⟩

theorem exec_total (i : Instr) (hi : s.Inv) : ∃ t, exec i s = .next t := by
  cases i with
  | init rate delim =>
    unfold exec execInit
    refine unlessHalted_total ?_
    by_cases hr : rateAccepted rate
    · exact ⟨_, if_pos hr⟩
    · exact ⟨_, if_neg hr⟩
  | absorb len =>
    unfold exec execAbsorb absorbWith
    refine unlessHalted_total (whenAbsorbing_total hi ?_)
    by_cases hp : s.payloadReady len
    · exact ⟨_, if_pos hp⟩
    · exact ⟨_, if_neg hp⟩
  | finalize outlen =>
    unfold exec execFinalize finalizeWith
    exact unlessHalted_total (whenAbsorbing_total hi ⟨_, rfl⟩)

/-- Settles O14: every case of a step has a next state of its own but the command's, which has one by `exec_total`. -/
theorem stepNeverStopsUnderInvariants : Obligations.StepNeverStopsUnderInvariants := by
  intro s hi
  cases hr : s.rst with
  | true => exact ⟨_, step_of_rst hr⟩
  | false =>
    cases hf : s.fault with
    | true => exact ⟨_, step_of_halted hr hf⟩
    | false =>
      cases hc : s.cmd with
      | nil => exact ⟨_, step_of_cmd_nil hr hc⟩
      | cons w rest =>
        cases hd : decode w with
        | error e => exact ⟨_, step_of_illegal hr hf hc hd⟩
        | ok i => rw [step_of_decode hr hf hc hd]; exact exec_total i hi

/-! ### The bytes from the cursor on (R23(f)) -/

theorem construct_zeroTail (s : State) (rate delim : Byte) : (s.construct rate delim).zeroTail :=
  fun a _ => read_zeroed a

/-- An ABSORB that permutes nothing leaves room in the block (41_absorb.md R83). -/
theorem absorbed_room {P : Lanes → Lanes} {len : Len} (hc : s.cursorInBlock) (hp : s.payloadReady len)
    (h : (absorbed P len s).perm = s.perm) : s.offset.toNat + len.toNat < s.rate.toNat := by
  have hlen : (absorbed P len s).perm.length = _ :=
    (absorbSerial_counts (P := P) (s := s.accept (.absorb len)) hc (s.din.take len.toNat)).2
  simp only [h, accept_perm, accept_offset, accept_rate, List.length_take, Nat.min_eq_left hp] at hlen
  exact (Nat.div_eq_zero_iff_lt hc.1.1).1 (by omega)

/-- With room in the block, an ABSORB writes below its new cursor only (20_memory.md R38). -/
theorem absorbed_zeroTail {P : Lanes → Lanes} {len : Len} (hm : s.mem.wf) (hc : s.cursorInBlock)
    (hp : s.payloadReady len) (hlt : s.offset.toNat + len.toNat < s.rate.toNat) (hz : s.zeroTail) :
    (absorbed P len s).zeroTail := by
  have hrate := hc.1.2
  have hlen : (s.din.take len.toNat).length = len.toNat := by simp [Nat.min_eq_left hp]
  have hroom := absorbSerial_of_room (P := P) (s := s.accept (.absorb len)) (bs := s.din.take len.toNat) hc
    (by rw [hlen]; exact hlt)
  have hoff : (s.offset + BitVec.ofNat 8 len.toNat).toNat = s.offset.toNat + len.toNat :=
    offset_add_toNat (by omega)
  intro a ha
  simp only [absorbed, hroom, hlen, setCnt_offset, dinTake_offset, setOffset_offset, accept_offset, hoff] at ha
  simp only [absorbed, hroom, setCnt_mem, dinTake_mem, setOffset_mem, setMem_mem, accept_mem, accept_offset]
  rw [read_xorBytes hm (by omega), hlen, if_neg (by omega)]
  exact hz a (by omega)

/-- Settles O26: INIT zeroes the buffer, and an ABSORB that permutes nothing stays below its new cursor. -/
theorem tailIsZeroUntilFirstPermutation : Obligations.TailIsZeroUntilFirstPermutation := by
  refine ⟨fun s t rate delim hf h ht => ?_, fun s t len hi hp hz h hperm => ?_⟩
  · obtain ⟨hf', -⟩ | ⟨-, -, rfl⟩ | ⟨-, -, rfl⟩ := exec_init_next h
    · rw [hf] at hf'; cases hf'
    · exact construct_zeroTail _ rate delim
    · cases ht
  · obtain ⟨-, rfl⟩ | ⟨-, hp', -⟩ | ⟨-, hp', -⟩ | ⟨-, -, -, -, rfl⟩ | ⟨-, -, hc, hpay, rfl⟩ := exec_absorb_next h
    · exact hz
    · rw [hp] at hp'; cases hp'
    · rw [hp] at hp'; cases hp'
    · exact hz
    · obtain ⟨hm, -⟩ := hi
      exact absorbed_zeroTail hm hc hpay (absorbed_room hc hpay hperm) hz

/-! ### The transition table of `phase` (R17) -/

theorem exec_init_phase {rate delim : Byte} (hf : s.fault = false) (h : exec (.init rate delim) s = .next t) :
    (rateAccepted rate → t.phase = .absorbing ∧ t.fault = false) ∧
    (¬rateAccepted rate → t.phase = s.phase ∧ t.fault = true ∧ t.cause = .badRate) := by
  obtain ⟨hf', -⟩ | ⟨-, hr, rfl⟩ | ⟨-, hr, rfl⟩ := exec_init_next h
  · rw [hf] at hf'; cases hf'
  · exact ⟨fun _ => ⟨rfl, hf⟩, fun hr' => absurd hr hr'⟩
  · exact ⟨fun hr' => absurd hr' hr, fun _ => ⟨rfl, rfl, rfl⟩⟩

/-- The row of the table for a command with the phase check, which a run in ABSORBING takes to the phase `p`. -/
def PhaseRow (s t : State) (p : Phase) : Prop :=
  (s.phase = .idle → t.phase = .idle ∧ t.fault = true ∧ t.cause = .notConstructed) ∧
  (s.phase = .absorbing → t.phase = p ∧ t.fault = false) ∧
  (s.phase = .consumed → t.phase = .consumed ∧ t.fault = true ∧ t.cause = .useAfterFinalize)

theorem phaseRow_of_idle {p : Phase} (hp : s.phase = .idle) : PhaseRow s (s.takeCmd.raise .notConstructed) p :=
  ⟨fun _ => ⟨hp, rfl, rfl⟩, by simp [hp], by simp [hp]⟩

theorem phaseRow_of_consumed {p : Phase} (hp : s.phase = .consumed) :
    PhaseRow s (s.takeCmd.raise .useAfterFinalize) p :=
  ⟨by simp [hp], by simp [hp], fun _ => ⟨hp, rfl, rfl⟩⟩

theorem phaseRow_of_absorbing {p : Phase} (hp : s.phase = .absorbing) (ht : t.phase = p) (hf : t.fault = false) :
    PhaseRow s t p :=
  ⟨by simp [hp], fun _ => ⟨ht, hf⟩, by simp [hp]⟩

theorem exec_absorb_phase {len : Len} (hf : s.fault = false) (h : exec (.absorb len) s = .next t) :
    PhaseRow s t .absorbing := by
  obtain ⟨hf', -⟩ | ⟨-, hp, rfl⟩ | ⟨-, hp, rfl⟩ | ⟨-, hp, -, -, rfl⟩ | ⟨-, hp, -, -, rfl⟩ := exec_absorb_next h
  · rw [hf] at hf'; cases hf'
  · exact phaseRow_of_idle hp
  · exact phaseRow_of_consumed hp
  · exact phaseRow_of_absorbing hp hp hf
  · exact phaseRow_of_absorbing hp (by simp [hp]) (by simp [hf])

theorem exec_finalize_phase {outlen : Len} (hf : s.fault = false) (h : exec (.finalize outlen) s = .next t) :
    PhaseRow s t .consumed := by
  obtain ⟨hf', -⟩ | ⟨-, hp, rfl⟩ | ⟨-, hp, rfl⟩ | ⟨-, hp, -, rfl⟩ := exec_finalize_next h
  · rw [hf] at hf'; cases hf'
  · exact phaseRow_of_idle hp
  · exact phaseRow_of_consumed hp
  · exact phaseRow_of_absorbing hp rfl (by simp [hf])

/-- Settles O39: reset, the halted step, and the three commands each by its row. -/
theorem phaseTransitionTable : Obligations.PhaseTransitionTable := by
  intro s t h
  refine ⟨fun hr => ?_, fun hr hf => ?_, fun hr hf w rest hc => ⟨fun rate delim hd => ?_, fun len hd => ?_,
    fun outlen hd => ?_⟩⟩
  · rw [step_of_rst hr] at h; cases h; rfl
  · rw [step_of_halted hr hf] at h; cases h; rfl
  · exact exec_init_phase hf (step_of_decode hr hf hc hd ▸ h)
  · exact exec_absorb_phase hf (step_of_decode hr hf hc hd ▸ h)
  · exact exec_finalize_phase hf (step_of_decode hr hf hc hd ▸ h)

/-! ### After reset and after INIT (R24, R25) -/

theorem memRead_zeroed (a n : Nat) : Memory.zeroed.memRead a n = 0 := by
  induction n generalizing a with
  | zero => rfl
  | succ n ih => simp [Memory.memRead, ih]

@[simp] theorem lane_zeroed (k : Nat) : Memory.zeroed.lane k = 0#64 := by rw [Memory.lane, memRead_zeroed]

theorem reset_status : State.reset.status = 0x00000000#32 := by decide

/-- Settles O8: the step that sees `rst` answers `State.reset`, whose fields are the values of R24's table. -/
theorem resetGivesSpecifiedValues : Obligations.ResetGivesSpecifiedValues :=
  ⟨fun _ => step_of_rst, read_zeroed, lane_zeroed, rfl, rfl, rfl, rfl, rfl, rfl, rfl, reset_status, rfl, rfl, rfl, rfl⟩

/-- Settles O17: INIT writes five fields, and the invariants fix the other three (assumption log 19). -/
theorem initForgetsTheStateBefore : Obligations.InitForgetsTheStateBefore := by
  rintro s rate delim ⟨-, -, -, -, -, hcnt, hcause⟩ hf h1 h200
  refine ⟨_, execInit_next.2 (.inr (.inl ⟨hf, ⟨h1, h200⟩, rfl⟩)), ?_⟩
  ext1
  case fault => exact hf
  case cause => exact hcause.1 hf
  case cnt => exact hcnt
  all_goals rfl

/-! ### The status word (R22) -/

/-- A field of the upper part stands in the word above the lower part's width. -/
theorem field_above {v w start len : Nat} {x : BitVec v} {y : BitVec w} {f : BitVec len}
    (h : x.extractLsb' start len = f) : (x ++ y).extractLsb' (start + w) len = f := by
  rw [BitVec.extractLsb'_append_eq_of_le (Nat.le_add_left w start), Nat.add_sub_cancel, h]

open BitVec (extractLsb'_append_eq_right extractLsb'_eq_self) in
theorem status_fields (e : Engine) :
    e.status.extractLsb' 0 8 = e.delimiter ∧ e.status.extractLsb' 8 8 = e.rate ∧
    e.status.extractLsb' 16 8 = e.offset ∧ e.status.extractLsb' 24 2 = e.phase.code ∧
    e.status.extractLsb' 26 1 = BitVec.ofBool e.fault ∧ e.status.extractLsb' 27 3 = e.cause.code ∧
    e.status.extractLsb' 30 2 = 0#2 := by
  refine ⟨?delim, ?rate, ?offset, ?phase, ?fault, ?cause, ?zero⟩
  case delim => exact extractLsb'_append_eq_right
  case rate => exact field_above extractLsb'_append_eq_right
  case offset => exact field_above <| field_above extractLsb'_append_eq_right
  case phase => exact field_above <| field_above <| field_above extractLsb'_append_eq_right
  case fault => exact field_above <| field_above <| field_above <| field_above extractLsb'_append_eq_right
  case cause =>
    exact field_above <| field_above <| field_above <| field_above <| field_above extractLsb'_append_eq_right
  case zero =>
    exact field_above <| field_above <| field_above <| field_above <| field_above <| field_above extractLsb'_eq_self

theorem phase_code_ne_two {p : Phase} (h : p ≠ .squeezing) : p.code ≠ 2#2 := by
  cases p with
  | squeezing => exact absurd rfl h
  | idle => decide
  | absorbing => decide
  | consumed => decide

theorem status_phase_ne_squeezing (h : s.Inv) : s.status.extractLsb' 24 2 ≠ 2#2 := by
  obtain ⟨-, hsq, -⟩ := h
  obtain ⟨-, -, -, hphase, -⟩ := status_fields s.toEngine
  rw [hphase]
  exact phase_code_ne_two hsq

/-- Settles O49: each field is read past the fields below it, and `mem` is no part of the word. -/
theorem statusWordFields : Obligations.StatusWordFields :=
  ⟨status_fields, fun _ _ => rfl, fun _ => status_phase_ne_squeezing, rfl, reset_status⟩

end Sys2Proof.Proofs
end

