-- ==== Sys2Proof/Proofs/Memory.lean ====
section
/-! The obligations of 20_memory.md: the canonical form of the buffer (R30), its lanes (R31), taking a word from `cmd`
(R41), taking payload from `din` (R42) and putting output on `dout` (R43). -/

namespace Sys2Proof.Proofs

open Sys2Proof.Machine Sys2Proof.Laws

variable {s t : State}

/-! ### What a command can answer -/

/-- What the command `i` can make of the state `s`: nothing, a fault with its word taken, or its own effect. -/
inductive ExecEffect (s : State) : Instr → State → Prop
  /-- The engine is halted, or an ABSORB waits for its payload. -/
  | unchanged {i : Instr} : ExecEffect s i s
  | faulted {i : Instr} (c : Cause) : ExecEffect s i (s.takeCmd.raise c)
  | init {rate delim : Byte} (hf : s.fault = false) (hr : rateAccepted rate) :
      ExecEffect s (.init rate delim) ((s.accept (.init rate delim)).construct rate delim)
  | absorb {len : Len} (hf : s.fault = false) (hp : s.phase = .absorbing) (hc : s.cursorInBlock)
      (hpay : s.payloadReady len) : ExecEffect s (.absorb len) (absorbed Config.P len s)
  | finalize {outlen : Len} (hf : s.fault = false) (hp : s.phase = .absorbing) (hc : s.cursorInBlock) :
      ExecEffect s (.finalize outlen) (finalized Config.P outlen s)

theorem exec_effect {i : Instr} (h : exec i s = .next t) : ExecEffect s i t := by
  cases i with
  | init rate delim =>
    obtain ⟨-, rfl⟩ | ⟨hf, hr, rfl⟩ | ⟨-, -, rfl⟩ := exec_init_next h
    · exact .unchanged
    · exact .init hf hr
    · exact .faulted _
  | absorb len =>
    obtain ⟨-, rfl⟩ | ⟨-, -, rfl⟩ | ⟨-, -, rfl⟩ | ⟨-, -, -, -, rfl⟩ | ⟨hf, hp, hc, hpay, rfl⟩ := exec_absorb_next h
    · exact .unchanged
    · exact .faulted _
    · exact .faulted _
    · exact .unchanged
    · exact .absorb hf hp hc hpay
  | finalize outlen =>
    obtain ⟨-, rfl⟩ | ⟨-, -, rfl⟩ | ⟨-, -, rfl⟩ | ⟨hf, hp, hc, rfl⟩ := exec_finalize_next h
    · exact .unchanged
    · exact .faulted _
    · exact .faulted _
    · exact .finalize hf hp hc

/-! ### The canonical form is kept (R30) -/

/-- Every command keeps the canonical form: the phase check puts each address it forms inside the rate region. -/
theorem wf_exec {i : Instr} (hm : s.mem.wf) (h : exec i s = .next t) : t.mem.wf := by
  cases exec_effect h with
  | unchanged => exact hm
  | faulted => exact hm
  | init => exact wf_zeroed
  | absorb _ _ hc => exact wf_absorbed hm hc
  | finalize => exact wf_finalized

/-- Settles O13: a reset empties the buffer, a wait and a fault leave it, and a command keeps its form. -/
theorem stepKeepsMemoryCanonical : Obligations.StepKeepsMemoryCanonical := by
  intro s t hm h
  obtain ⟨-, rfl⟩ | ⟨-, ⟨-, rfl⟩ | ⟨-, ⟨-, rfl⟩ | ⟨w, rest, e, -, -, rfl⟩ | ⟨w, rest, i, -, -, hx⟩⟩⟩ := stepBy_next.1 h
  · exact wf_zeroed
  · exact hm
  · exact hm
  · exact hm
  · exact wf_exec hm hx

/-! ### Lanes are little-endian (R31) -/

/-- `MemRead(a, n)` as the sum that defines it (00_scope.md section 7). -/
theorem memRead_eq_sum (m : Memory) (a n : Nat) :
    m.memRead a n = ((List.range n).map fun j => (m.read (a + j)).toNat * 256 ^ j).sum := by
  induction n generalizing a with
  | zero => rfl
  | succ n ih =>
    have hterm (j : Nat) : (m.read (a + (j + 1))).toNat * 256 ^ (j + 1) =
        256 * ((m.read (a + 1 + j)).toNat * 256 ^ j) := by
      rw [Nat.add_right_comm a 1 j, Nat.add_assoc a j 1, Nat.pow_succ, Nat.mul_comm 256, Nat.mul_assoc]
    calc m.memRead a (n + 1)
      _ = (m.read a).toNat + 256 * ((List.range n).map fun j => (m.read (a + 1 + j)).toNat * 256 ^ j).sum := by
        rw [Memory.memRead, ih]
      _ = ((List.range (n + 1)).map fun j => (m.read (a + j)).toNat * 256 ^ j).sum := by
        simp [List.range_succ_eq_map, Function.comp_def, hterm, List.sum_map_mul_left]

/-- Settles O47: a lane is `MemRead` of its eight bytes, as a sum and byte by byte. -/
theorem lanesAreLittleEndianBytes : Obligations.LanesAreLittleEndianBytes := by
  refine fun m => ⟨fun k _ => ?_, fun i _ => ?_⟩
  · rw [lane_toNat, memRead_eq_sum]
  · rw [lane_toNat, memRead_byte m (Nat.mod_lt i (by omega)), Nat.div_add_mod]

/-! ### Taking a word from `cmd` (R41) -/

/-- Settles O6: the decoded command is what the step runs. -/
theorem stepRunsDecodedCommand : Obligations.StepRunsDecodedCommand :=
  fun _ _ _ _ hr hf hc hd _ => step_of_decode hr hf hc hd

/-- What a step without a reset can answer, a command's answer left to `exec`: nothing happened, the word was illegal,
or the command at the head of `cmd` ran. -/
theorem step_next_of_not_rst (hr : s.rst = false) (h : step s = .next t) :
    t = s ∨ t = s.takeCmd.raise .illegalCommand ∨
      ∃ w rest i, s.cmd = w :: rest ∧ decode w = .ok i ∧ exec i s = .next t := by
  obtain ⟨hr', -⟩ | ⟨-, ⟨-, ht⟩ | ⟨-, ⟨-, ht⟩ | ⟨w, rest, e, -, -, ht⟩ | ⟨w, rest, i, hc, hd, hx⟩⟩⟩ := stepBy_next.1 h
  · rw [hr] at hr'; cases hr'
  · exact .inl ht
  · exact .inl ht
  · exact .inr (.inl ht)
  · exact .inr (.inr ⟨w, rest, i, hc, hd, hx⟩)

/-! ### Payload from `din` (R42) -/

@[simp] theorem absorbed_din (P : Lanes → Lanes) (len : Len) (s : State) :
    (absorbed P len s).din = s.din.drop len.toNat := by
  rw [absorbed_eq]

@[simp] theorem absorbed_cmd (P : Lanes → Lanes) (len : Len) (s : State) : (absorbed P len s).cmd = s.cmd.tail := by
  rw [absorbed_eq]

@[simp] theorem finalized_din (P : Lanes → Lanes) (outlen : Len) (s : State) : (finalized P outlen s).din = s.din := by
  rw [finalized_eq]

/-- Only an ABSORB that runs to its end changes `din`. -/
theorem exec_din {i : Instr} (h : exec i s = .next t) :
    t.din = s.din ∨
      ∃ len, i = .absorb len ∧ s.phase = .absorbing ∧ s.payloadReady len ∧ t = absorbed Config.P len s := by
  cases exec_effect h with
  | unchanged => exact .inl rfl
  | faulted => exact .inl rfl
  | init => exact .inl rfl
  | absorb _ hp _ hpay => exact .inr ⟨_, rfl, hp, hpay, rfl⟩
  | finalize => exact .inl (finalized_din ..)

/-- Settles O41: a step that changes `din` is an ABSORB that ran, and that one takes its word and its payload. -/
theorem onlyAbsorbTakesFromDin : Obligations.OnlyAbsorbTakesFromDin := by
  intro s t hr h
  obtain rfl | rfl | ⟨w, rest, i, hc, hd, hx⟩ := step_next_of_not_rst hr h
  · exact .inl rfl
  · exact .inl rfl
  · obtain hdin | ⟨len, rfl, hp, hpay, rfl⟩ := exec_din hx
    · exact .inl hdin
    · exact .inr ⟨w, rest, len, hc, hd, hp, hpay, absorbed_din .., by rw [absorbed_cmd, hc, List.tail_cons]⟩

/-- An ABSORB with the cursor in its block and its payload not all on `din` waits, nothing changed (assumption log 7). -/
theorem exec_absorb_wait {len : Len} (hf : s.fault = false) (hp : s.phase = .absorbing) (hc : s.cursorInBlock)
    (hd : s.din.length < len.toNat) : exec (.absorb len) s = .next s :=
  absorbWith_next.2 (.inr (.inr (.inr (.inl ⟨hf, hp, hc, Nat.not_le_of_lt hd, rfl⟩))))

/-- Settles O10: with `cmd` empty nothing is taken; short of payload the command waits, and in a halted engine its step
does nothing either. -/
theorem engineWaitsForItsInputs : Obligations.EngineWaitsForItsInputs := by
  refine ⟨fun s => step_of_cmd_nil, fun s len => exec_absorb_wait, fun s w rest len hr hp hc hw hd hlen => ?_⟩
  cases hf : s.fault with
  | true => exact step_of_halted hr hf
  | false => rw [step_of_decode hr hf hw hd, exec_absorb_wait hf hp hc hlen]

/-! ### Output on `dout` (R43) -/

@[simp] theorem absorbed_dout (P : Lanes → Lanes) (len : Len) (s : State) : (absorbed P len s).dout = s.dout := by
  rw [absorbed_eq]

/-- An accepted FINALIZE puts exactly `outlen` bytes after those on `dout` (42_finalize.md R90). -/
theorem finalized_dout (P : Lanes → Lanes) (outlen : Len) (s : State) :
    ∃ out, out.length = outlen.toNat ∧ (finalized P outlen s).dout = s.dout ++ out := by
  obtain ⟨out, ho⟩ := finalized_dout_extends P outlen s
  have hlen := finalized_dout_length P outlen s
  rw [ho, List.length_append] at hlen
  exact ⟨out, by omega, ho⟩

/-- Only a FINALIZE that runs changes `dout`. -/
theorem exec_dout {i : Instr} (h : exec i s = .next t) :
    t.dout = s.dout ∨ ∃ outlen, i = .finalize outlen ∧ t.fault = false := by
  cases exec_effect h with
  | unchanged => exact .inl rfl
  | faulted => exact .inl rfl
  | init => exact .inl rfl
  | absorb => exact .inl (absorbed_dout ..)
  | finalize hf => exact .inr ⟨_, rfl, by rw [finalized_fault, hf]⟩

/-- A FINALIZE that starts and ends without a fault ran to its end: it never waits. -/
theorem exec_finalize_of_no_fault {outlen : Len} (hf : s.fault = false) (ht : t.fault = false)
    (h : exec (.finalize outlen) s = .next t) : t = finalized Config.P outlen s := by
  obtain ⟨hf', -⟩ | ⟨-, -, rfl⟩ | ⟨-, -, rfl⟩ | ⟨-, -, -, rfl⟩ := exec_finalize_next h
  · rw [hf] at hf'; cases hf'
  · cases ht
  · cases ht
  · rfl

theorem step_dout (hr : s.rst = false) (h : step s = .next t) :
    t.dout = s.dout ∨ ∃ w rest outlen, s.cmd = w :: rest ∧ decode w = .ok (.finalize outlen) ∧ t.fault = false := by
  obtain rfl | rfl | ⟨w, rest, i, hc, hd, hx⟩ := step_next_of_not_rst hr h
  · exact .inl rfl
  · exact .inl rfl
  · obtain hdout | ⟨outlen, rfl, hf⟩ := exec_dout hx
    · exact .inl hdout
    · exact .inr ⟨w, rest, outlen, hc, hd, hf⟩

theorem takeDout_append (s : State) (n : Nat) : (s.takeDout n).1 ++ (s.takeDout n).2.dout = s.dout :=
  List.take_append_drop n s.dout

/-- Settles O42: only a FINALIZE that runs changes `dout`, by `outlen` bytes at its end; the host takes
from the front. -/
theorem onlyFinalizePutsOnDout : Obligations.OnlyFinalizePutsOnDout := by
  refine ⟨fun s t hr h => ⟨step_dout hr h, fun hf ht w rest outlen hc hd => ?_⟩, takeDout_append⟩
  rw [step_of_decode hr hf hc hd] at h
  rw [exec_finalize_of_no_fault hf ht h]
  exact finalized_dout Config.P outlen s

end Sys2Proof.Proofs
end

