-- ==== Sys2Proof/Proofs/Encoding.lean ====
section
/-! The obligations of 30_encoding.md: the two formats (R51, R52), the opcode map (R55), illegal words (R56), decoding
and encoding (R59), worked words (R63), and the assembler's lines (R60, R61). -/

namespace Sys2Proof.Proofs

open Sys2Proof.Machine Sys2Proof.Laws
open BitVec (extractLsb'_append_eq_left extractLsb'_append_eq_right extractLsb'_append_extractLsb'
  extractLsb'_append_extractLsb'_eq_extractLsb' extractLsb'_eq_self)

variable {w : Word} {i : Instr} {op zero rate delim : Byte} {len outlen : Len}

/-! ### The two formats (R51, R52) -/

/-- Format L: a word is its opcode and its length (30_encoding.md R52). -/
theorem formatL_eq_iff : op ++ len = w ↔ opcodeField w = op ∧ lenField w = len := by
  constructor
  · rintro rfl
    exact ⟨extractLsb'_append_eq_left, extractLsb'_append_eq_right⟩
  · rintro ⟨rfl, rfl⟩
    exact extractLsb'_append_extractLsb' (w := 8) (len := 24)

/-- Format I: a word is its opcode, zero field, rate and delimiter (30_encoding.md R51). -/
theorem formatI_eq_iff : op ++ zero ++ rate ++ delim = w ↔
    opcodeField w = op ∧ zeroField w = zero ∧ rateField w = rate ∧ delimField w = delim := by
  constructor
  · rintro rfl
    exact ⟨field_above <| field_above <| field_above extractLsb'_eq_self,
      field_above <| field_above extractLsb'_append_eq_right, field_above extractLsb'_append_eq_right,
      extractLsb'_append_eq_right⟩
  · rintro ⟨rfl, rfl, rfl, rfl⟩
    rw [opcodeField, zeroField, rateField, delimField,
      extractLsb'_append_extractLsb'_eq_extractLsb' (rfl : 24 = 16 + 8),
      extractLsb'_append_extractLsb'_eq_extractLsb' (rfl : 16 = 8 + 8),
      extractLsb'_append_extractLsb'_eq_extractLsb' (rfl : 8 = 0 + 8)]
    exact extractLsb'_eq_self

/-! ### What the decoder reads -/

/-- A word is a command in three ways, by its opcode (30_encoding.md R55, R56). -/
theorem decode_ok_iff : decode w = .ok i ↔
    (opcodeField w = 0x01#8 ∧ zeroField w = 0x00#8 ∧ i = .init (rateField w) (delimField w)) ∨
    (opcodeField w = 0x02#8 ∧ i = .absorb (lenField w)) ∨
    (opcodeField w = 0x03#8 ∧ i = .finalize (lenField w)) := by
  unfold decode
  split
  · next h1 =>
    split
    · next hz => simp [h1, hz, eq_comm]
    · next hz => simp [h1, hz]
  · next h1 =>
    split
    · next h2 => simp [h2, eq_comm]
    · next h2 =>
      split
      · next h3 => simp [h3, eq_comm]
      · next h3 => simp [h1, h2, h3]

theorem decode_init_iff : decode w = .ok (.init rate delim) ↔
    opcodeField w = 0x01#8 ∧ zeroField w = 0x00#8 ∧ rateField w = rate ∧ delimField w = delim := by
  simp [decode_ok_iff, eq_comm]

theorem decode_absorb_iff : decode w = .ok (.absorb len) ↔ opcodeField w = 0x02#8 ∧ lenField w = len := by
  simp [decode_ok_iff, eq_comm]

theorem decode_finalize_iff :
    decode w = .ok (.finalize outlen) ↔ opcodeField w = 0x03#8 ∧ lenField w = outlen := by
  simp [decode_ok_iff, eq_comm]

theorem decode_eq_ok_iff_encode_eq (w : Word) (i : Instr) : decode w = .ok i ↔ encode i = w := by
  cases i with
  | init rate delim => exact decode_init_iff.trans formatI_eq_iff.symm
  | absorb len => exact decode_absorb_iff.trans formatL_eq_iff.symm
  | finalize outlen => exact decode_finalize_iff.trans formatL_eq_iff.symm

@[simp] theorem decode_encode (i : Instr) : decode (encode i) = .ok i := (decode_eq_ok_iff_encode_eq _ i).2 rfl

/-- Settles O1: the decoder asks of each field what the word of the command has there. -/
theorem decodeInvertsEncode : Obligations.DecodeInvertsEncode := decode_eq_ok_iff_encode_eq

/-! ### Words and fields as numbers (R51 to R53) -/

/-- The number of two fields side by side. -/
theorem append_toNat {m n : Nat} (x : BitVec m) (y : BitVec n) : (x ++ y).toNat = x.toNat * 2 ^ n + y.toNat := by
  rw [BitVec.toNat_append, ← Nat.shiftLeft_add_eq_or_of_lt y.isLt, Nat.shiftLeft_eq]

theorem encode_init_toNat (rate delim : Byte) :
    (encode (.init rate delim)).toNat = 0x01000000 + 256 * rate.toNat + delim.toNat := by
  have h : (encode (.init rate delim)).toNat = ((1 * 2 ^ 8 + 0) * 2 ^ 8 + rate.toNat) * 2 ^ 8 + delim.toNat := by
    simp only [encode, append_toNat, BitVec.toNat_ofNat]
  omega

theorem encode_absorb_toNat (len : Len) : (encode (.absorb len)).toNat = 0x02000000 + len.toNat :=
  append_toNat 0x02#8 len

theorem encode_finalize_toNat (outlen : Len) : (encode (.finalize outlen)).toNat = 0x03000000 + outlen.toNat :=
  append_toNat 0x03#8 outlen

/-- Settles O2: each word is the sum of its fields, each at its place. -/
theorem encodedWordsAsNumbers : Obligations.EncodedWordsAsNumbers :=
  ⟨encode_init_toNat, encode_absorb_toNat, encode_finalize_toNat⟩

theorem opcodeField_toNat (w : Word) : (opcodeField w).toNat = w.toNat / 2 ^ 24 := by
  rw [opcodeField, BitVec.extractLsb'_toNat, Nat.shiftRight_eq_div_pow]
  omega

theorem zeroField_toNat (w : Word) : (zeroField w).toNat = w.toNat / 2 ^ 16 % 2 ^ 8 := by
  rw [zeroField, BitVec.extractLsb'_toNat, Nat.shiftRight_eq_div_pow]

theorem rateField_toNat (w : Word) : (rateField w).toNat = w.toNat / 2 ^ 8 % 2 ^ 8 := by
  rw [rateField, BitVec.extractLsb'_toNat, Nat.shiftRight_eq_div_pow]

theorem delimField_toNat (w : Word) : (delimField w).toNat = w.toNat % 2 ^ 8 := BitVec.extractLsb'_toNat 0 8 w

theorem lenField_toNat (w : Word) : (lenField w).toNat = w.toNat % 2 ^ 24 := BitVec.extractLsb'_toNat 0 24 w

/-- Settles O4: an operand is its field of the word, and the command's own word carries it. -/
theorem operandsAreUnsignedFields : Obligations.OperandsAreUnsignedFields := by
  refine ⟨fun w rate delim h => ?_, fun w len h => ?_, fun w outlen h => ?_, fun rate delim => ⟨_, decode_encode _⟩,
    fun len => ⟨_, decode_encode _⟩, fun outlen => ⟨_, decode_encode _⟩⟩
  · obtain ⟨-, -, rfl, rfl⟩ := decode_init_iff.1 h
    exact ⟨rateField_toNat w, delimField_toNat w⟩
  · obtain ⟨-, rfl⟩ := decode_absorb_iff.1 h
    exact lenField_toNat w
  · obtain ⟨-, rfl⟩ := decode_finalize_iff.1 h
    exact lenField_toNat w

/-! ### The opcode map (R55) -/

/-- The mask of format L keeps the opcode. -/
theorem and_opcodeMask_eq_iff : w &&& 0xFF000000#32 = op ++ 0#24 ↔ opcodeField w = op := by
  have hw : opcodeField w ++ lenField w = w := formatL_eq_iff.2 ⟨rfl, rfl⟩
  conv_lhs => rw [← hw, EncodedRow.and_opcodeMask]
  exact BitVec.append_left_inj 0#24

/-- The mask of format I keeps the opcode and the zero field. -/
theorem and_initMask_eq_iff :
    w &&& 0xFFFF0000#32 = op ++ zero ++ 0#8 ++ 0#8 ↔ opcodeField w = op ∧ zeroField w = zero := by
  have hw : opcodeField w ++ zeroField w ++ rateField w ++ delimField w = w := formatI_eq_iff.2 ⟨rfl, rfl, rfl, rfl⟩
  obtain ⟨hop, hzero, hrate, hdelim⟩ :=
    formatI_eq_iff.1 (rfl : op ++ zero ++ 0#8 ++ 0#8 = (op ++ zero ++ 0#8 ++ 0#8 : Word))
  conv_lhs => rw [← hw, EncodedRow.and_initMask]
  rw [formatI_eq_iff, hop, hzero, hrate, hdelim]
  simp [eq_comm]

theorem opcodeField_mask : ∀ r ∈ opcodeMap, opcodeField r.mask = 0xFF#8 := by decide

/-- A word that a row of the map hits has the row's opcode: every mask keeps all of it. -/
theorem opcodeField_of_hit {r : OpcodeRow} (hr : r ∈ opcodeMap) (h : r.hit w = true) :
    opcodeField r.pattern = opcodeField w := by
  have hw : w &&& r.mask = r.pattern := eq_of_beq h
  have hmask : opcodeField r.mask = BitVec.allOnes 8 := opcodeField_mask r hr
  rw [← hw, opcodeField, BitVec.extractLsb'_and]
  show opcodeField w &&& opcodeField r.mask = opcodeField w
  rw [hmask, BitVec.and_allOnes]

/-- The rows have different opcodes, so a word hits at most one. -/
theorem hit_rows_length_le_one (w : Word) : (opcodeMap.filter fun r => r.hit w).length ≤ 1 := by
  have hall : ∀ op ∈ (opcodeMap.filter fun r => r.hit w).map (opcodeField ·.pattern), op = opcodeField w := by
    simp only [List.mem_map, List.mem_filter]
    rintro op ⟨r, ⟨hr, hit⟩, rfl⟩
    exact opcodeField_of_hit hr hit
  have hdiff : ((opcodeMap.filter fun r => r.hit w).map (opcodeField ·.pattern)).Nodup :=
    (by decide : (opcodeMap.map (opcodeField ·.pattern)).Nodup).sublist (List.filter_sublist.map _)
  rw [List.eq_replicate_of_mem hall, List.nodup_replicate, List.length_map] at hdiff
  exact hdiff

/-- Settles O3: each mask keeps the fields the decoder tests, and the three opcodes differ. -/
theorem decodeFollowsOpcodeMap : Obligations.DecodeFollowsOpcodeMap := by
  refine fun w => ⟨?_, ?_, ?_, hit_rows_length_le_one w⟩
  · simp only [decode_init_iff, exists_and_left, exists_eq', and_true]
    exact and_initMask_eq_iff.symm
  · simp only [decode_absorb_iff, exists_and_left, exists_eq', and_true]
    exact and_opcodeMask_eq_iff.symm
  · simp only [decode_finalize_iff, exists_and_left, exists_eq', and_true]
    exact and_opcodeMask_eq_iff.symm

/-! ### Illegal words (R56) -/

/-- The words that are a command, as numbers: all but those of a reserved opcode and INIT's with a zero field that is
not zero. -/
theorem exists_decode_iff (w : Word) : (∃ i, decode w = .ok i) ↔
    ¬(w.toNat / 2 ^ 24 = 0 ∨ 4 ≤ w.toNat / 2 ^ 24 ∨ (w.toNat / 2 ^ 24 = 1 ∧ w.toNat / 2 ^ 16 % 2 ^ 8 ≠ 0)) := by
  have hfields : (∃ i, decode w = .ok i) ↔
      (opcodeField w = 0x01#8 ∧ zeroField w = 0x00#8) ∨ opcodeField w = 0x02#8 ∨ opcodeField w = 0x03#8 := by
    simp only [decode_ok_iff, exists_or, exists_and_left, exists_eq, and_true]
  rw [hfields, ← opcodeField_toNat, ← zeroField_toNat]
  simp only [← BitVec.toNat_inj, BitVec.toNat_ofNat]
  omega

/-- Settles O34: an illegal word has no command, so the decoder answers an error and the step takes the fault. -/
theorem illegalWordRaisesIllegalCommand : Obligations.IllegalWordRaisesIllegalCommand := by
  refine ⟨fun s w rest hr hf hc hw => ?_, fun w => (exists_decode_iff w).2⟩
  cases hd : decode w with
  | ok i => exact absurd hw ((exists_decode_iff w).1 ⟨i, hd⟩)
  | error e =>
    rw [step_of_illegal hr hf hc hd, State.takeCmd, hc]
    rfl

/-- Settles O5: the decoder run on each of the eleven words. -/
theorem workedWordsDecode : Obligations.WorkedWordsDecode := by
  unfold Obligations.WorkedWordsDecode
  decide

/-! ### The assembler's lines (R60, R61) -/

/-- A length field holds every length the assembler accepts. -/
theorem len_ofNat_toNat {n : Nat} (h : n ≤ Config.maxLen) : (BitVec.ofNat 24 n).toNat = n := by
  rw [BitVec.toNat_ofNat]
  exact Nat.mod_eq_of_lt (Nat.lt_succ_of_le h)

/-- The assembler's number of a word in format L. -/
theorem ofNat_eq_formatL (op : Byte) {n : Nat} (h : n ≤ Config.maxLen) :
    BitVec.ofNat 32 (op.toNat * 2 ^ 24 + n) = op ++ BitVec.ofNat 24 n := by
  have hn := len_ofNat_toNat h
  apply BitVec.eq_of_toNat_eq
  rw [append_toNat, hn, BitVec.toNat_ofNat]
  exact Nat.mod_eq_of_lt (by omega)

/-- The assembler's number of an INIT is the command's word. -/
theorem ofNat_eq_encode_init {rate delim : Nat} (hr : rate ≤ 255) (hd : delim ≤ 255) :
    BitVec.ofNat 32 (0x01000000 + 256 * rate + delim) =
      encode (.init (BitVec.ofNat 8 rate) (BitVec.ofNat 8 delim)) := by
  apply BitVec.eq_of_toNat_eq
  rw [encode_init_toNat]
  simp only [BitVec.toNat_ofNat]
  omega

theorem sentInit_decodes {rate delim : Nat} (hr : rate ≤ 255) (hd : delim ≤ 255) :
    ∃ r d : Byte, r.toNat = rate ∧ d.toNat = delim ∧ decode (sentInit rate delim).word = .ok (.init r d) := by
  refine ⟨BitVec.ofNat 8 rate, BitVec.ofNat 8 delim, Nat.mod_eq_of_lt (by omega), Nat.mod_eq_of_lt (by omega), ?_⟩
  rw [sentInit, ofNat_eq_encode_init hr hd, decode_encode]

theorem sentAbsorb_decodes {data : List Byte} (h : data.length ≤ Config.maxLen) :
    ∃ n : Len, n.toNat = data.length ∧ decode (sentAbsorb data).word = .ok (.absorb n) :=
  ⟨_, len_ofNat_toNat h, decode_absorb_iff.2 (formatL_eq_iff.1 (ofNat_eq_formatL 0x02#8 h).symm)⟩

theorem finalizeWord_decodes {outlen : Nat} (h : outlen ≤ Config.maxLen) :
    ∃ n : Len, n.toNat = outlen ∧ decode (BitVec.ofNat 32 (0x03000000 + outlen)) = .ok (.finalize n) :=
  ⟨_, len_ofNat_toNat h, decode_finalize_iff.2 (formatL_eq_iff.1 (ofNat_eq_formatL 0x03#8 h).symm)⟩

/-- Settles O53: inside the accepted bounds the assembler's sum is the word of the two formats. -/
theorem assembledLinesDecode : Obligations.AssembledLinesDecode := by
  refine ⟨fun rate delim h => ?_, fun data h => ?_, fun outlen h => ?_⟩
  · simp only [AsmLine.wellFormed, Bool.and_eq_true, decide_eq_true_eq] at h
    obtain ⟨hr, hd⟩ := h
    exact ⟨_, rfl, sentInit_decodes hr hd⟩
  · exact ⟨_, rfl, sentAbsorb_decodes (of_decide_eq_true h)⟩
  · exact ⟨_, rfl, finalizeWord_decodes (of_decide_eq_true h)⟩

/-! ### UPDATE (R61) -/

/-- The pieces put together are the data: each is cut from the front of what the rest is made from. -/
theorem sentUpdate_payload (fuel : Nat) (data : List Byte) : (sentUpdate fuel data).flatMap Sent.payload = data := by
  induction fuel generalizing data with
  | zero => simp [sentUpdate, sentAbsorb]
  | succ fuel ih =>
    unfold sentUpdate
    split
    · simp [sentAbsorb]
    · rw [List.flatMap_cons, ih, sentAbsorb, List.take_append_drop]

theorem sentUpdate_of_short (fuel : Nat) {data : List Byte} (h : data.length ≤ Config.maxLen) :
    sentUpdate fuel data = [sentAbsorb data] := by
  cases fuel with
  | zero => rfl
  | succ fuel => rw [sentUpdate, if_pos h]

/-- Every piece is one ABSORB the assembler accepts. Each pass takes at least one byte, so what the passes leave is
short. -/
theorem mem_sentUpdate {fuel : Nat} {data : List Byte} {c : Sent} (hfuel : data.length ≤ fuel + Config.maxLen)
    (hc : c ∈ sentUpdate fuel data) : ∃ piece, piece.length ≤ Config.maxLen ∧ c = sentAbsorb piece := by
  induction fuel generalizing data with
  | zero => exact ⟨data, by omega, List.mem_singleton.1 hc⟩
  | succ fuel ih =>
    unfold sentUpdate at hc
    split at hc
    · next hshort => exact ⟨data, hshort, List.mem_singleton.1 hc⟩
    · obtain rfl | hrest := List.mem_cons.1 hc
      · exact ⟨_, List.length_take_le .., rfl⟩
      · have hmax : 0 < Config.maxLen := by decide
        exact ih (by rw [List.length_drop]; omega) hrest

/-- Settles O54: the pieces join to the data, each is an accepted ABSORB, and short data is one piece. -/
theorem updateSendsItsDataWhole : Obligations.UpdateSendsItsDataWhole := by
  refine fun data => ⟨sentUpdate_payload _ data, fun c hc => ?_, sentUpdate_of_short data.length⟩
  obtain ⟨piece, hlen, rfl⟩ := mem_sentUpdate (Nat.le_add_right ..) hc
  exact ⟨hlen, sentAbsorb_decodes hlen⟩

end Sys2Proof.Proofs
end

/-! The obligations of 40_construct.md: what INIT answers (R70 to R72), what it leaves unchanged (R77), that no other
command writes `rate` and `delimiter` (R73), and the named variants (R74). -/

namespace Sys2Proof.Proofs

open Sys2Proof.Machine Sys2Proof.Laws

variable {s t : State} {rate delim : Byte}

/-! ### What INIT answers (R70 to R72) -/

/-- INIT looks at no phase: with a good rate it constructs an instance from every running state (R71). -/
theorem exec_init_of_rateAccepted (hf : s.fault = false) (hr : rateAccepted rate) :
    exec (.init rate delim) s = .next ((s.accept (.init rate delim)).construct rate delim) :=
  execInit_next.2 (.inr (.inl ⟨hf, hr, rfl⟩))

theorem exec_init_of_not_rateAccepted (hf : s.fault = false) (hr : ¬rateAccepted rate) :
    exec (.init rate delim) s = .next (s.takeCmd.raise .badRate) :=
  execInit_next.2 (.inr (.inr ⟨hf, hr, rfl⟩))

/-- The whole state an accepted INIT leaves (R70). -/
theorem accept_construct_eq (s : State) (rate delim : Byte) :
    (s.accept (.init rate delim)).construct rate delim =
      { s with
        mem := Memory.zeroed, rate := rate, delimiter := delim, offset := 0#8, phase := .absorbing,
        cmd := s.cmd.tail, accepted := s.accepted ++ [.init rate delim] } := rfl

/-- Settles O55: the rate check passes, and what INIT then writes is said field by field. -/
theorem initCompletes : Obligations.InitCompletes := by
  intro s rate delim hf h1 h200
  rw [exec_init_of_rateAccepted hf ⟨h1, h200⟩, accept_construct_eq]

/-- Settles O16: the rate check passes for 1 to 200 and for no other rate. -/
theorem initConstructsOrRaisesBadRate : Obligations.InitConstructsOrRaisesBadRate := by
  refine ⟨fun s rate delim hf h1 h200 => ?_, fun s rate delim hf hbad => ?_⟩
  · exact ⟨_, exec_init_of_rateAccepted hf ⟨h1, h200⟩, read_zeroed, accept_construct_eq s rate delim⟩
  · have hr : ¬rateAccepted rate := fun ⟨h1, h200⟩ => by omega
    exact exec_init_of_not_rateAccepted hf hr

/-! ### What INIT leaves unchanged (R77) -/

/-- Settles O18: a halted INIT changes nothing, an accepted one ends without a fault and writes none of the fields named,
and a faulting one writes only `fault`, `cause` and `cmd`. -/
theorem initFrame : Obligations.InitFrame := by
  intro s t rate delim h
  obtain ⟨-, rfl⟩ | ⟨hf, -, rfl⟩ | ⟨hf, -, rfl⟩ := exec_init_next h
  · simp
  · simp [hf]
  · simp [hf]

/-! ### No other command writes `rate` and `delimiter` (R73) -/

@[simp] theorem absorbed_rate (P : Lanes → Lanes) (len : Len) (s : State) : (absorbed P len s).rate = s.rate := by
  rw [absorbed_eq]

@[simp] theorem absorbed_delimiter (P : Lanes → Lanes) (len : Len) (s : State) :
    (absorbed P len s).delimiter = s.delimiter := by
  rw [absorbed_eq]

@[simp] theorem finalized_delimiter (P : Lanes → Lanes) (outlen : Len) (s : State) :
    (finalized P outlen s).delimiter = s.delimiter := by
  rw [finalized_eq]

/-- Only an INIT changes `rate` or `delimiter`, and it writes its operands. -/
theorem exec_rate_delimiter {i : Instr} (h : exec i s = .next t) :
    (t.rate = s.rate ∧ t.delimiter = s.delimiter) ∨ i = .init t.rate t.delimiter := by
  cases exec_effect h with
  | unchanged => exact .inl ⟨rfl, rfl⟩
  | faulted => exact .inl ⟨rfl, rfl⟩
  | init => exact .inr rfl
  | absorb => exact .inl ⟨absorbed_rate .., absorbed_delimiter ..⟩
  | finalize => exact .inl ⟨finalized_rate .., finalized_delimiter ..⟩

/-- Settles O40: a step that runs no command leaves both registers, and of the commands only INIT writes them. -/
theorem onlyInitWritesRateAndDelimiter : Obligations.OnlyInitWritesRateAndDelimiter := by
  intro s t hr h
  obtain rfl | rfl | ⟨w, rest, i, hc, hd, hx⟩ := step_next_of_not_rst hr h
  · exact .inl ⟨rfl, rfl⟩
  · exact .inl ⟨rfl, rfl⟩
  · obtain hsame | rfl := exec_rate_delimiter hx
    · exact .inl hsame
    · exact .inr ⟨w, rest, _, _, hc, hd, rfl, rfl⟩

/-! ### The named variants (R74) -/

/-- A level's pseudo-command stands for the INIT with the level's rate and the variants' delimiter (30_encoding.md R61). -/
theorem assemble_initLevel (securityBits : Nat) :
    (AsmLine.initLevel securityBits).assemble = (AsmLine.init (levelRate securityBits) levelDelim).assemble := rfl

/-- Settles O52: the table is R74's formulas at the four levels, and each word is the assembler's sum for its row. -/
theorem namedVariantsAreTheirInits : Obligations.NamedVariantsAreTheirInits :=
  ⟨by decide, assemble_initLevel, by decide, by decide, by decide, by decide⟩

end Sys2Proof.Proofs

/-! The obligations of 41_absorb.md: what ABSORB leaves when it runs (R80 to R83, R86, R87), its byte-serial form and
its splits (R84, R85), its faults (R81), its frame, and that no step's control depends on data (R89). -/

namespace Sys2Proof.Proofs

open Sys2Proof.Machine Sys2Proof.Laws

variable {P : Lanes → Lanes} {s s' t : State} {len outlen : Len}

/-! ### ABSORB completes (R80, R83) -/

theorem length_payload (hd : s.payloadReady len) : (s.din.take len.toNat).length = len.toNat :=
  List.length_take_of_le hd

/-- The cursor and the number of permutations an ABSORB leaves (R83). -/
theorem absorbed_counts (hc : s.cursorInBlock) (hd : s.payloadReady len) :
    (absorbed P len s).offset.toNat = (s.offset.toNat + len.toNat) % s.rate.toNat ∧
    (absorbed P len s).perm.length = s.perm.length + (s.offset.toNat + len.toNat) / s.rate.toNat := by
  have h := absorbSerial_counts (P := P) (s := s.accept (.absorb len)) hc (s.din.take len.toNat)
  rwa [length_payload hd] at h

/-- Settles O19: an ABSORB that runs answers `absorbed`, whose counts and frame are known. -/
theorem absorbCompletes : Obligations.AbsorbCompletes := by
  intro s len hf hp hc hd
  obtain ⟨hoff, hperm⟩ := absorbed_counts (P := Config.P) hc hd
  exact ⟨_, exec_absorb_run hf hp hc hd, hoff, hperm, absorbed_eq Config.P len s⟩

/-! ### ABSORB within its block (R80, R82, R86, R87) -/

/-- The buffer with the payload XORed in from the cursor on, which is what an ABSORB that stays in its block makes of it
(R80). -/
def payloadXored (len : Len) (s : State) : Memory := s.mem.xorBytes s.offset.toNat (s.din.take len.toNat)

theorem read_payloadXored (hm : s.mem.wf) (hd : s.payloadReady len) (hle : s.offset.toNat + len.toNat ≤ 200) (a : Nat) :
    (payloadXored len s).read a =
      if s.offset.toNat ≤ a ∧ a < s.offset.toNat + len.toNat then s.mem.read a ^^^ s.din.getD (a - s.offset.toNat) 0#8
      else s.mem.read a := by
  rw [payloadXored, read_xorBytes hm (by rwa [length_payload hd]), length_payload hd]
  split
  · next ha =>
    have hi : a - s.offset.toNat < len.toNat := by omega
    rw [List.getD_eq_getElem?_getD, List.getElem?_take_of_lt hi, ← List.getD_eq_getElem?_getD]
  · rfl

theorem read_payloadXored_outside (hm : s.mem.wf) (hd : s.payloadReady len)
    (hle : s.offset.toNat + len.toNat ≤ 200) {a : Nat}
    (ha : ¬(s.offset.toNat ≤ a ∧ a < s.offset.toNat + len.toNat)) : (payloadXored len s).read a = s.mem.read a := by
  rw [read_payloadXored hm hd hle, if_neg ha]

/-- With room in the block the payload is XORed in and the cursor moves on; nothing is permuted (R80, R87). -/
theorem absorbed_of_room (hc : s.cursorInBlock) (hd : s.payloadReady len)
    (hlt : s.offset.toNat + len.toNat < s.rate.toNat) :
    absorbed P len s =
      { s with
        mem := payloadXored len s, offset := s.offset + BitVec.ofNat 8 len.toNat, cnt := 0#24, cmd := s.cmd.tail,
        din := s.din.drop len.toNat, accepted := s.accepted ++ [.absorb len],
        dinTaken := s.dinTaken ++ s.din.take len.toNat } := by
  have hlen := length_payload hd
  rw [absorbed, absorbSerial_of_room (s := s.accept (.absorb len)) hc (by rwa [hlen]), hlen]
  rfl

theorem permuteIfFull_of_full (h : s.offset = s.rate) : s.permuteIfFull P = (s.permute P).setOffset 0#8 := by
  rw [State.permuteIfFull, if_pos h]

/-- With the block exactly filled the permutation runs at once, on the buffer with the payload in it (R86). -/
theorem absorbed_of_fills (hc : s.cursorInBlock) (hd : s.payloadReady len)
    (hfill : s.offset.toNat + len.toNat = s.rate.toNat) :
    (absorbed P len s).offset = 0#8 ∧ (absorbed P len s).perm = s.perm ++ [(payloadXored len s).lanes] ∧
    (absorbed P len s).mem = Memory.ofLanes (P (payloadXored len s).lanes) := by
  have hlen := length_payload hd
  have hne : s.din.take len.toNat ≠ [] := fun hnil => by
    have hlt := hc.2
    rw [hnil, List.length_nil] at hlen
    omega
  have hfull : s.offset + BitVec.ofNat 8 len.toNat = s.rate :=
    BitVec.eq_of_toNat_eq (by rw [offset_add_toNat (by omega), hfill])
  rw [absorbed, absorbSerial_chunk (s := s.accept (.absorb len)) hne hc (by rw [hlen]; exact hfill.le), hlen,
    permuteIfFull_of_full]
  · exact ⟨rfl, rfl, rfl⟩
  · exact hfull

/-- Settles O20: `absorbed_of_room`, its buffer read byte by byte. -/
theorem absorbWithRoomXorsItsBytes : Obligations.AbsorbWithRoomXorsItsBytes := by
  intro s len hm hf hp hc hd hlt
  have hle : s.offset.toNat + len.toNat ≤ 200 := by have := hc.1.2; omega
  refine ⟨_, exec_absorb_run hf hp hc hd, ?_⟩
  rw [absorbed_of_room hc hd hlt]
  refine ⟨offset_add_toNat (by omega), rfl, fun i hi => ?_, fun a ha => ?_⟩
  · rw [read_payloadXored hm hd hle, if_pos (by omega), Nat.add_sub_cancel_left]
  · exact read_payloadXored_outside hm hd hle (by omega)

/-- Settles O21: `absorbed_of_fills`, the lanes handed over read byte by byte. -/
theorem absorbFillingBlockPermutesAtOnce : Obligations.AbsorbFillingBlockPermutesAtOnce := by
  intro s len hm hf hp hc hd hfill
  have hle : s.offset.toNat + len.toNat ≤ 200 := hfill ▸ hc.1.2
  obtain ⟨hoff, hperm, hmem⟩ := absorbed_of_fills (P := Config.P) hc hd hfill
  refine ⟨_, _, exec_absorb_run hf hp hc hd, hoff, hperm, hmem, fun a ha => ?_⟩
  rw [lanesByte_lanes _ ha, read_payloadXored hm hd hle, hfill]

theorem setCnt_of_eq {c : Len} (h : s.cnt = c) : s.setCnt c = s := by
  subst h; rfl

theorem absorbed_zero (hcnt : s.cnt = 0#24) : absorbed P 0#24 s = s.accept (.absorb 0#24) := by
  have hx : absorbed P 0#24 s = (s.accept (.absorb 0#24)).setCnt 0#24 :=
    congrArg (State.setCnt · 0#24) (dinTake_zero _)
  exact hx.trans (setCnt_of_eq hcnt)

/-- Settles O22: with no byte to absorb only the acceptance is left, since `cnt` is 0 by the invariants. -/
theorem absorbOfNothingChangesNothing : Obligations.AbsorbOfNothingChangesNothing := by
  rintro s ⟨-, -, -, habs, -, hcnt, -⟩ hf hp
  rw [exec_absorb_run hf hp (habs hp) (Nat.zero_le _), absorbed_zero hcnt]
  rfl

/-! ### The byte-serial form (R85) -/

/-- Settles O23: the loop is the byte-serial form, which does not look at the channels or at `cnt`. -/
theorem absorbEqualsByteSerialForm : Obligations.AbsorbEqualsByteSerialForm := by
  intro P s len hf hp hc hd
  rw [execWith, absorbWith_run hf hp hc hd, absorbed, ← absorbSerial_dinTake_setCnt]
  rfl

/-! ### Splits of a message (R84) -/

/-- The number of bytes that the ABSORBs of the lengths `lens` take. -/
def totalLen (lens : List Len) : Nat := (lens.map BitVec.toNat).sum

@[simp] theorem totalLen_nil : totalLen [] = 0 := rfl

@[simp] theorem totalLen_cons (len : Len) (lens : List Len) : totalLen (len :: lens) = len.toNat + totalLen lens := by
  simp [totalLen]

/-- What the ABSORBs of the lengths `lens` do beside absorbing: they take and record their words and their payloads. -/
def takeAbsorbs (lens : List Len) (s : State) : State :=
  { s with
    cmd := s.cmd.drop lens.length
    din := s.din.drop (totalLen lens)
    accepted := s.accepted ++ lens.map .absorb
    dinTaken := s.dinTaken ++ s.din.take (totalLen lens) }

@[simp] theorem takeAbsorbs_nil (s : State) : takeAbsorbs [] s = s := by
  simp [takeAbsorbs]

theorem takeAbsorbs_cons (len : Len) (lens : List Len) (s : State) :
    takeAbsorbs (len :: lens) s = takeAbsorbs lens (takeAbsorbs [len] s) := by
  simp [takeAbsorbs, List.take_add, List.drop_drop, Nat.add_comm]

/-- Absorbing a byte does not look at what the ABSORBs take and record. -/
theorem absorbByte_takeAbsorbs (lens : List Len) (s : State) (b : Byte) :
    (takeAbsorbs lens s).absorbByte P b = takeAbsorbs lens (s.absorbByte P b) := by
  simp only [State.absorbByte, State.permuteIfFull]
  by_cases hfull : s.offset + 1#8 = s.rate
  · rw [if_pos (by exact hfull), if_pos (by exact hfull)]; rfl
  · rw [if_neg (by exact hfull), if_neg (by exact hfull)]; rfl

theorem absorbSerial_takeAbsorbs (bs : List Byte) (lens : List Len) (s : State) :
    absorbSerial P bs (takeAbsorbs lens s) = takeAbsorbs lens (absorbSerial P bs s) :=
  List.foldl_hom (takeAbsorbs lens) (absorbByte_takeAbsorbs lens)

theorem absorbed_eq_takeAbsorbs (hcnt : s.cnt = 0#24) :
    absorbed P len s = takeAbsorbs [len] (absorbSerial P (s.din.take len.toNat) s) := by
  rw [absorbed, ← absorbSerial_dinTake_setCnt, ← absorbSerial_takeAbsorbs]
  rw [setCnt_of_eq]
  · simp [takeAbsorbs, State.accept, State.dinTake]
  · exact hcnt

/-- ABSORBs one after another absorb their payloads as one string (R84). -/
theorem execAll_absorbs (lens : List Len) (hf : s.fault = false) (hp : s.phase = .absorbing) (hc : s.cursorInBlock)
    (hcnt : s.cnt = 0#24) (hd : totalLen lens ≤ s.din.length) :
    execAll P (lens.map .absorb) s =
      .next (takeAbsorbs lens (absorbSerial P (s.din.take (totalLen lens)) s)) := by
  induction lens generalizing s with
  | nil => simp [execAll]
  | cons len lens ih =>
    rw [totalLen_cons] at hd
    have hrun : execWith P (.absorb len) s = .next (absorbed P len s) :=
      absorbWith_run hf hp hc (Nat.le_trans (Nat.le_add_right ..) hd)
    have hrest := ih (s := absorbed P len s) (by simp [hf]) (by simp [hp]) (absorbed_cursor hc) rfl
      (by simp; omega)
    rw [List.map_cons, execAll, hrun]
    refine hrest.trans (congrArg _ ?_)
    calc takeAbsorbs lens (absorbSerial P ((absorbed P len s).din.take (totalLen lens)) (absorbed P len s))
      _ = takeAbsorbs lens (takeAbsorbs [len] (absorbSerial P ((s.din.drop len.toNat).take (totalLen lens))
            (absorbSerial P (s.din.take len.toNat) s))) := by
        rw [absorbed_din, absorbed_eq_takeAbsorbs hcnt, absorbSerial_takeAbsorbs]
      _ = takeAbsorbs (len :: lens) (absorbSerial P (s.din.take (totalLen (len :: lens))) s) := by
        rw [← takeAbsorbs_cons, ← absorbSerial_append, ← List.take_add, totalLen_cons]

/-- Settles O24: both sides absorb the same string and take the same bytes of `din`. -/
theorem absorbSplitsAgree : Obligations.AbsorbSplitsAgree := by
  intro P s lens total hf hp hc hcnt hsum hd
  have hsum : totalLen lens = total.toNat := hsum
  refine ⟨_, _, execAll_absorbs lens hf hp hc hcnt (by rwa [hsum]), absorbWith_run hf hp hc hd, ?_, ?_⟩
  · rw [absorbSerial_frame]; rfl
  · rw [absorbed_eq_takeAbsorbs hcnt, hsum]
    simp [takeAbsorbs, hsum]

/-! ### Faults (R81, 42_finalize.md R99) -/

/-- What ABSORB and FINALIZE share, the halted check and the phase check, faults in IDLE whatever the effect. -/
theorem guarded_of_idle (hf : s.fault = false) (hp : s.phase = .idle)
    (effect : State → Host.Outcome State Fault Refusal) :
    s.unlessHalted (State.whenAbsorbing · effect) = .next (s.takeCmd.raise .notConstructed) := by
  rw [unlessHalted_of_running hf, whenAbsorbing_of_idle hp]

theorem guarded_of_consumed (hf : s.fault = false) (hp : s.phase = .consumed)
    (effect : State → Host.Outcome State Fault Refusal) :
    s.unlessHalted (State.whenAbsorbing · effect) = .next (s.takeCmd.raise .useAfterFinalize) := by
  rw [unlessHalted_of_running hf, whenAbsorbing_of_consumed hp]

/-- Settles O35: ABSORB and FINALIZE share the checks, which fault before the effect is looked at. -/
theorem wrongPhaseRaisesItsFault : Obligations.WrongPhaseRaisesItsFault :=
  ⟨fun _ _ hf hp => ⟨guarded_of_idle hf hp _, guarded_of_idle hf hp _⟩,
    fun _ _ hf hp => ⟨guarded_of_consumed hf hp _, guarded_of_consumed hf hp _⟩⟩

/-! ### What ABSORB leaves unchanged (R73, R80, R81, R89) -/

@[simp] theorem absorbed_cnt (P : Lanes → Lanes) (len : Len) (s : State) : (absorbed P len s).cnt = 0#24 := rfl

@[simp] theorem absorbed_rst (P : Lanes → Lanes) (len : Len) (s : State) : (absorbed P len s).rst = s.rst := by
  rw [absorbed_eq]

@[simp] theorem absorbed_doutTaken (P : Lanes → Lanes) (len : Len) (s : State) :
    (absorbed P len s).doutTaken = s.doutTaken := by
  rw [absorbed_eq]

/-- An ABSORB that permutes nothing touches only the bytes of its payload's addresses (20_memory.md R36). -/
theorem absorbed_read_outside (hm : s.mem.wf) (hc : s.cursorInBlock) (hd : s.payloadReady len)
    (hperm : (absorbed P len s).perm = s.perm) {a : Nat}
    (ha : ¬(s.offset.toNat ≤ a ∧ a < s.offset.toNat + len.toNat)) : (absorbed P len s).mem.read a = s.mem.read a := by
  have hlt := absorbed_room hc hd hperm
  rw [absorbed_of_room hc hd hlt]
  exact read_payloadXored_outside hm hd (by have := hc.1.2; omega) ha

/-- Settles O25: a halted or waiting ABSORB changes nothing, a faulting one only `fault`, `cause` and `cmd`, and one
that runs ends without a fault. -/
theorem absorbFrame : Obligations.AbsorbFrame := by
  rintro s t len ⟨hm, -, -, -, -, hcnt, -⟩ h
  obtain ⟨-, rfl⟩ | ⟨-, -, rfl⟩ | ⟨-, -, rfl⟩ | ⟨-, -, -, -, rfl⟩ | ⟨hf, -, hc, hd, rfl⟩ := exec_absorb_next h
  · simp
  · simp
  · simp
  · simp
  · refine ⟨absorbed_rate .., absorbed_delimiter .., absorbed_phase .., absorbed_dout .., absorbed_rst ..,
      absorbed_doutTaken .., hcnt.symm, fun _ => absorbed_cause .., fun ht => ?_, fun hperm a ha => ?_⟩
    · rw [absorbed_fault, hf] at ht; cases ht
    · exact absorbed_read_outside hm hc hd hperm ha

/-! ### Control does not depend on data (R89, 70_reset_and_hazards.md R151) -/

theorem raise_shape (h : s.shape = s'.shape) (c : Cause) :
    (s.takeCmd.raise c).shape = (s'.takeCmd.raise c).shape :=
  congrArg (fun x : Shape => { x with fault := true, cause := c, cmd := x.cmd.tail }) h

theorem construct_shape (h : s.shape = s'.shape) (rate delim : Byte) :
    ((s.accept (.init rate delim)).construct rate delim).shape =
      ((s'.accept (.init rate delim)).construct rate delim).shape :=
  congrArg (fun x : Shape => { x with
    rate := rate, offset := 0#8, phase := .absorbing, cmd := x.cmd.tail,
    accepted := x.accepted ++ [Instr.init rate delim] }) h

/-- What an ABSORB that runs makes of the shape: numbers computed from numbers (R83). -/
def absorbedShape (len : Len) (x : Shape) : Shape :=
  { x with
    offset := BitVec.ofNat 8 ((x.offset.toNat + len.toNat) % x.rate.toNat)
    cnt := 0#24
    cmd := x.cmd.tail
    dinLen := x.dinLen - len.toNat
    permLen := x.permLen + (x.offset.toNat + len.toNat) / x.rate.toNat
    accepted := x.accepted ++ [.absorb len]
    dinTakenLen := x.dinTakenLen + len.toNat }

theorem absorbed_shape (hc : s.cursorInBlock) (hd : s.payloadReady len) :
    (absorbed P len s).shape = absorbedShape len s.shape := by
  obtain ⟨hoff, hperm⟩ := absorbed_counts (P := P) hc hd
  have hoff' : (absorbed P len s).offset = BitVec.ofNat 8 ((s.offset.toNat + len.toNat) % s.rate.toNat) := by
    rw [← hoff, BitVec.ofNat_toNat, BitVec.setWidth_eq]
  rw [absorbed_eq]
  simp [State.shape, absorbedShape, hoff', hperm, Nat.min_eq_left hd]

/-- What a FINALIZE that runs makes of the shape (42_finalize.md R95, R98). -/
def finalizedShape (outlen : Len) (x : Shape) : Shape :=
  { x with
    offset := BitVec.ofNat 8 (outlen.toNat - x.rate.toNat * ((outlen.toNat - 1) / x.rate.toNat))
    phase := .consumed
    cnt := 0#24
    cmd := x.cmd.tail
    doutLen := x.doutLen + outlen.toNat
    permLen := x.permLen + 1 + (outlen.toNat - 1) / x.rate.toNat
    accepted := x.accepted ++ [.finalize outlen] }

theorem finalized_shape (hc : s.cursorInBlock) : (finalized P outlen s).shape = finalizedShape outlen s.shape := by
  obtain ⟨hoff, hperm⟩ := finalized_counts (P := P) (outlen := outlen) hc
  have hoff' : (finalized P outlen s).offset =
      BitVec.ofNat 8 (outlen.toNat - s.rate.toNat * ((outlen.toNat - 1) / s.rate.toNat)) := by
    rw [← hoff, BitVec.ofNat_toNat, BitVec.setWidth_eq]
  have hcnt := finalized_cnt P outlen s
  have hdout := finalized_dout_length P outlen s
  rw [finalized_eq]
  simp [State.shape, finalizedShape, hoff', hperm, hcnt, hdout]

/-- Every command begins with the halted check (60_exceptions.md R125). -/
theorem exec_of_halted (hf : s.fault = true) (i : Instr) : exec i s = .next s := by
  cases i with
  | init rate delim => exact execInit_next.2 (.inl ⟨hf, rfl⟩)
  | absorb len => exact absorbWith_next.2 (.inl ⟨hf, rfl⟩)
  | finalize outlen => exact finalizeWith_next.2 (.inl ⟨hf, rfl⟩)

/-- What the checks of the commands look at is part of the shape. -/
theorem checks_of_shape (h : s.shape = s'.shape) :
    s.fault = s'.fault ∧ s.phase = s'.phase ∧ (s.cursorInBlock ↔ s'.cursorInBlock) ∧
    ∀ len, s.payloadReady len ↔ s'.payloadReady len := by
  have hrate : s.rate = s'.rate := congrArg Shape.rate h
  have hoff : s.offset = s'.offset := congrArg Shape.offset h
  have hdin : s.din.length = s'.din.length := congrArg Shape.dinLen h
  exact ⟨congrArg Shape.fault h, congrArg Shape.phase h, by rw [State.cursorInBlock, hrate, hoff],
    fun len => by rw [State.payloadReady, hdin]⟩

/-- Of two states of one shape a command makes two states of one shape. -/
theorem exec_shape {i : Instr} (h : s.shape = s'.shape) (hx : exec i s = .next t) :
    ∃ t', exec i s' = .next t' ∧ t.shape = t'.shape := by
  obtain ⟨hfault, hphase, hcur, hpay⟩ := checks_of_shape h
  cases i with
  | init rate delim =>
    have hn := exec_init_next hx
    rw [hfault] at hn
    obtain ⟨hf, rfl⟩ | ⟨hf, hr, rfl⟩ | ⟨hf, hr, rfl⟩ := hn
    · exact ⟨s', exec_of_halted hf _, h⟩
    · exact ⟨_, exec_init_of_rateAccepted hf hr, construct_shape h rate delim⟩
    · exact ⟨_, exec_init_of_not_rateAccepted hf hr, raise_shape h _⟩
  | absorb len =>
    have hn := exec_absorb_next hx
    rw [hfault, hphase] at hn
    obtain ⟨hf, rfl⟩ | ⟨hf, hp, rfl⟩ | ⟨hf, hp, rfl⟩ | ⟨hf, hp, hc, hd, rfl⟩ | ⟨hf, hp, hc, hd, rfl⟩ := hn
    · exact ⟨s', exec_of_halted hf _, h⟩
    · exact ⟨_, guarded_of_idle hf hp _, raise_shape h _⟩
    · exact ⟨_, guarded_of_consumed hf hp _, raise_shape h _⟩
    · exact ⟨s', exec_absorb_wait hf hp (hcur.1 hc) (Nat.lt_of_not_le fun hd' => hd ((hpay len).2 hd')), h⟩
    · refine ⟨_, exec_absorb_run hf hp (hcur.1 hc) ((hpay len).1 hd), ?_⟩
      rw [absorbed_shape hc hd, absorbed_shape (hcur.1 hc) ((hpay len).1 hd), h]
  | finalize outlen =>
    have hn := exec_finalize_next hx
    rw [hfault, hphase] at hn
    obtain ⟨hf, rfl⟩ | ⟨hf, hp, rfl⟩ | ⟨hf, hp, rfl⟩ | ⟨hf, hp, hc, rfl⟩ := hn
    · exact ⟨s', exec_of_halted hf _, h⟩
    · exact ⟨_, guarded_of_idle hf hp _, raise_shape h _⟩
    · exact ⟨_, guarded_of_consumed hf hp _, raise_shape h _⟩
    · refine ⟨_, exec_finalize_run hf hp (hcur.1 hc), ?_⟩
      rw [finalized_shape hc, finalized_shape (hcur.1 hc), h]

/-- Settles O44: which case a step is in is fixed by the shape, and so is the shape each case leaves. -/
theorem controlDoesNotDependOnData : Obligations.ControlDoesNotDependOnData := by
  intro s s' t h hx
  have hrst : s.rst = s'.rst := congrArg Shape.rst h
  have hcmd : s.cmd = s'.cmd := congrArg Shape.cmd h
  have hfault : s.fault = s'.fault := congrArg Shape.fault h
  have hn := stepBy_next.1 hx
  rw [hrst, hcmd, hfault] at hn
  obtain ⟨hr, rfl⟩ | ⟨hr, ⟨hf, rfl⟩ | ⟨hf, ⟨hc, rfl⟩ | ⟨w, rest, e, hc, hd, rfl⟩ | ⟨w, rest, i, hc, hd, hi⟩⟩⟩ := hn
  · exact ⟨_, step_of_rst hr, rfl⟩
  · exact ⟨s', step_of_halted hr hf, h⟩
  · exact ⟨s', step_of_cmd_nil hr hc, h⟩
  · exact ⟨_, step_of_illegal hr hf hc hd, raise_shape h _⟩
  · rw [step_of_decode hr hf hc hd]
    exact exec_shape h hi

end Sys2Proof.Proofs

/-! The obligations of 42_finalize.md: what FINALIZE leaves when it runs (R90 to R98), its byte-serial form (R103), the
outputs of different lengths (R97), and what it leaves unchanged (R99, R104). -/

namespace Sys2Proof.Proofs

open Sys2Proof.Machine Sys2Proof.Laws

variable {P : Lanes → Lanes} {s : State} {n r : Nat} {outlen : Len}

/-! ### FINALIZE completes (R90, R95, R98) -/

/-- `max(1, ceil(n / r))` permutations are the first one and one more at the end of each full block that is not the
last (R98). -/
theorem max_one_ceil_div (n : Nat) (hr : 0 < r) : max 1 ((n + r - 1) / r) = (n - 1) / r + 1 := by
  rcases Nat.eq_zero_or_pos n with rfl | hn
  · rw [Nat.zero_add, Nat.div_eq_of_lt (Nat.sub_lt hr Nat.one_pos), Nat.zero_sub, Nat.zero_div]
    rfl
  · rw [Nat.sub_add_comm hn, Nat.add_div_right _ hr]
    exact Nat.max_eq_right (Nat.le_add_left ..)

/-- Settles O27: a FINALIZE that runs answers `finalized`, whose output, trace, counts and frame are known. -/
theorem finalizeCompletes : Obligations.FinalizeCompletes := by
  intro s outlen hf hp hc
  obtain ⟨out, hlen, hout⟩ := finalized_dout Config.P outlen s
  obtain ⟨calls, L, hperm, hmem⟩ := finalized_perm_last Config.P outlen s
  obtain ⟨hoff, hcount⟩ := finalized_counts (P := Config.P) (outlen := outlen) hc
  have hcalls : calls.length = (outlen.toNat - 1) / s.rate.toNat := by
    simp only [hperm, List.length_append, List.length_singleton] at hcount
    omega
  refine ⟨_, out, calls, L, exec_finalize_run hf hp hc, hlen, ?_, ?_, ?_⟩
  · rw [hcalls, max_one_ceil_div _ hc.1.1]
  · rw [hcalls, hoff]
  · rw [← hmem, ← hout, ← hperm, ← finalized_cnt Config.P outlen s]
    exact finalized_eq Config.P outlen s

/-- Settles O28: the first lanes handed over are those of the padded buffer, read byte by byte. -/
theorem finalizePadsTwoBytes : Obligations.FinalizePadsTwoBytes := by
  intro s outlen hm hf hp hc
  obtain ⟨calls, hperm⟩ := finalized_perm_first Config.P outlen s
  refine ⟨_, s.pad.mem.lanes, exec_finalize_run hf hp hc, by simp [hperm], fun a ha => ?_⟩
  rw [lanesByte_lanes _ ha, read_pad hm hc]
  by_cases hoff : a = s.offset.toNat
  · by_cases hlast : a = s.rate.toNat - 1
    · simp only [if_pos hoff, if_pos hlast]
    · simp only [if_pos hoff, if_neg hlast, BitVec.xor_zero]
  · by_cases hlast : a = s.rate.toNat - 1
    · simp only [if_neg hoff, if_pos hlast, BitVec.xor_zero]
    · simp only [if_neg hoff, if_neg hlast, BitVec.xor_zero]

/-- Settles O30: `finalized` is written in the byte-serial form. -/
theorem squeezeEqualsByteSerialForm : Obligations.SqueezeEqualsByteSerialForm :=
  fun _ _ _ hf hp hc => finalizeWith_run hf hp hc

/-! ### What FINALIZE leaves unchanged (R95, R99, R104) -/

@[simp] theorem finalized_rst (P : Lanes → Lanes) (outlen : Len) (s : State) :
    (finalized P outlen s).rst = s.rst := by
  rw [finalized_eq]

@[simp] theorem finalized_dinTaken (P : Lanes → Lanes) (outlen : Len) (s : State) :
    (finalized P outlen s).dinTaken = s.dinTaken := by
  rw [finalized_eq]

@[simp] theorem finalized_doutTaken (P : Lanes → Lanes) (outlen : Len) (s : State) :
    (finalized P outlen s).doutTaken = s.doutTaken := by
  rw [finalized_eq]

@[simp] theorem finalized_phase (P : Lanes → Lanes) (outlen : Len) (s : State) :
    (finalized P outlen s).phase = .consumed := rfl

@[simp] theorem finalized_accepted (P : Lanes → Lanes) (outlen : Len) (s : State) :
    (finalized P outlen s).accepted = s.accepted ++ [.finalize outlen] := by
  rw [finalized_eq]

/-- Settles O33: a halted FINALIZE changes nothing, a faulting one only `fault`, `cause` and `cmd`, and one that runs
ends without a fault. -/
theorem finalizeFrame : Obligations.FinalizeFrame := by
  rintro s t outlen ⟨-, -, -, -, -, hcnt, -⟩ h
  obtain ⟨hf, rfl⟩ | ⟨-, -, rfl⟩ | ⟨-, -, rfl⟩ | ⟨hf, -, -, rfl⟩ := exec_finalize_next h
  · simp [hf]
  · simp
  · simp
  · simp [hf, hcnt, finalized_cnt]

/-! ### The 200 bytes of 25 lanes (20_memory.md R31, R32) -/

theorem lanesByte_eq (L : Lanes) {k j : Nat} (hk : k < 25) (hj : j < 8) :
    lanesByte L (8 * k + j) = laneByte L[k] j := by
  have hdiv : (8 * k + j) / 8 = k := by omega
  have hmod : (8 * k + j) % 8 = j := by omega
  rw [lanesByte, hdiv, hmod, Vector.getElem?_eq_getElem hk, Option.getD_some]

/-- Lanes are fixed by the bytes of each. -/
theorem lanes_ext {A B : Lanes} (h : ∀ k < 25, ∀ j < 8, lanesByte A (8 * k + j) = lanesByte B (8 * k + j)) :
    A = B := by
  refine Vector.ext fun k hk => lane_ext fun j hj => ?_
  rw [← lanesByte_eq A hk hj, ← lanesByte_eq B hk hj, h k hk j hj]

/-- The lanes of the buffer that holds given lanes are those lanes. -/
theorem lanes_ofLanes (L : Lanes) : (Memory.ofLanes L).lanes = L :=
  lanes_ext fun k hk j hj => by
    have ha : 8 * k + j < 200 := by omega
    rw [lanesByte_lanes _ ha, read_ofLanes L ha]

/-- Pieces of eight entries joined are the whole list. -/
theorem flatMap_range_eight {α : Type} (f : Nat → α) (n : Nat) :
    ((List.range n).flatMap fun k => (List.range 8).map fun j => f (8 * k + j)) = (List.range (8 * n)).map f := by
  induction n with
  | zero => rfl
  | succ n ih =>
    rw [List.range_succ (n := n), List.flatMap_append, ih, Nat.mul_succ, List.range_add, List.map_append, List.map_map,
      List.flatMap_singleton]
    rfl

theorem stateBytes_eq (L : Lanes) : stateBytes L = (List.range 200).map (lanesByte L) := by
  have hlanes : L.toList = (List.range 25).map fun k => L[k]?.getD 0#64 := by
    refine List.ext_getElem (by simp) fun k hk _ => ?_
    have hk' : k < 25 := by simpa using hk
    simp [hk']
  have hbyte (k : Nat) (hk : k ∈ List.range 25) : ((List.range 8).map fun j => laneByte (L[k]?.getD 0#64) j) =
      (List.range 8).map fun j => lanesByte L (8 * k + j) := by
    have hk' : k < 25 := List.mem_range.1 hk
    refine List.map_congr_left fun j hj => ?_
    rw [lanesByte_eq L hk' (List.mem_range.1 hj), Vector.getElem?_eq_getElem hk', Option.getD_some]
  rw [stateBytes, hlanes, List.flatMap_map]
  exact (List.flatMap_congr hbyte).trans (flatMap_range_eight (lanesByte L) 25)

@[simp] theorem stateBytes_length (L : Lanes) : (stateBytes L).length = 200 := by
  rw [stateBytes_eq, List.length_map, List.length_range]

/-- The first `n` bytes of a state. -/
theorem stateBytes_take (L : Lanes) (hn : n ≤ 200) : (stateBytes L).take n = (List.range n).map (lanesByte L) := by
  rw [stateBytes_eq, ← List.map_take, List.take_range, Nat.min_eq_left hn]

/-- A block read from the buffer of a permutation's result is the beginning of that result (R94). -/
theorem block_ofLanes (L : Lanes) (hn : n ≤ 200) : (Memory.ofLanes L).block n = (stateBytes L).take n := by
  rw [stateBytes_take L hn, Memory.block]
  exact List.map_congr_left fun a ha => read_ofLanes L (Nat.lt_of_lt_of_le (List.mem_range.1 ha) hn)

/-! ### The squeeze is the sponge's output blocks (R94, R96, R101) -/

/-- The state at the start of the next output block: the whole of this one delivered, and a permutation (R94). -/
def nextBlock (P : Lanes → Lanes) (s : State) : State :=
  (((s.doutPut (s.mem.block s.rate.toNat)).setCnt (s.cnt - BitVec.ofNat 24 s.rate.toNat)).permute P).setOffset 0#8

/-- A squeeze of more than a block delivers that block and goes on from the next. -/
theorem squeezeSerial_rate_add (ho : s.offset = 0#8) (hr : rateAccepted s.rate) (m : Nat) :
    squeezeSerial P (s.rate.toNat + (m + 1)) s = squeezeSerial P (m + 1) (nextBlock P s) := by
  rw [squeezeSerial_add, squeezeSerial_block ho hr (Nat.le_refl _), BitVec.ofNat_toNat, BitVec.setWidth_eq,
    squeezeSerial_succ, squeezeSerial_succ]
  exact congrArg (squeezeSerial P m) (squeezeByte_of_eq rfl hr.1)

/-- From the start of a block, the squeeze delivers the first `n` bytes of the output blocks, however many blocks are
written out beyond the `n` bytes. -/
theorem squeezeSerial_dout {Z : Lanes} {k : Nat} (ho : s.offset = 0#8) (hr : rateAccepted s.rate)
    (hm : s.mem = Memory.ofLanes Z) (hk : n ≤ s.rate.toNat * k) :
    (squeezeSerial P n s).dout = s.dout ++ (spongeSqueeze P s.rate.toNat k Z).take n := by
  induction k generalizing s n Z with
  | zero =>
    obtain rfl : n = 0 := by omega
    simp
  | succ k ih =>
    have hlen : ((stateBytes Z).take s.rate.toNat).length = s.rate.toNat := by simp [hr.2]
    rw [spongeSqueeze, List.take_append, hlen, List.take_take]
    rcases le_or_gt n s.rate.toNat with hle | hlt
    · have hblock := block_ofLanes Z (Nat.le_trans hle hr.2)
      rw [squeezeSerial_block ho hr hle, Nat.sub_eq_zero_of_le hle, Nat.min_eq_left hle, hm, ← hblock]
      simp
    · have hblock := block_ofLanes Z hr.2
      obtain ⟨m, rfl⟩ := Nat.exists_eq_add_of_lt hlt
      rw [Nat.add_assoc, squeezeSerial_rate_add ho hr]
      have hmul := Nat.mul_add_one s.rate.toNat k
      have hrest := ih (s := nextBlock P s) (n := m + 1) (Z := P Z) rfl hr (by simp [nextBlock, hm, lanes_ofLanes])
        (show m + 1 ≤ s.rate.toNat * k by omega)
      rw [hrest]
      simp [nextBlock, hm, hblock]

/-- What a FINALIZE puts on `dout`: the beginning of the output blocks that start with the permuted padded buffer. -/
theorem finalized_dout_eq_spongeSqueeze {k : Nat} (hc : s.cursorInBlock) (hk : outlen.toNat ≤ s.rate.toNat * k) :
    (finalized P outlen s).dout =
      s.dout ++ (spongeSqueeze P s.rate.toNat k (P s.pad.mem.lanes)).take outlen.toNat :=
  squeezeSerial_dout (s := ((s.accept (.finalize outlen)).closeBlock P).setCnt outlen) rfl hc.1 rfl hk

/-- Settles O29: one output block holds the output, and the trace has no room for a second permutation. -/
theorem finalizeWithinOneBlock : Obligations.FinalizeWithinOneBlock := by
  intro s outlen hf hp hc hle
  have hdout := finalized_dout_eq_spongeSqueeze (P := Config.P) (k := 1) hc (hle.trans_eq (Nat.mul_one _).symm)
  have hbytes := stateBytes_take (Config.P s.pad.mem.lanes) (Nat.le_trans hle hc.1.2)
  obtain ⟨calls, hperm⟩ := finalized_perm_first Config.P outlen s
  obtain ⟨hoff, hcount⟩ := finalized_counts (P := Config.P) (outlen := outlen) hc
  have hq : (outlen.toNat - 1) / s.rate.toNat = 0 := Nat.div_eq_of_lt (by have := hc.1.1; omega)
  have hcalls : calls = [] := by
    simp only [hperm, hq, List.length_append, List.length_cons] at hcount
    exact List.eq_nil_of_length_eq_zero (by omega)
  refine ⟨_, s.pad.mem.lanes, exec_finalize_run hf hp hc, by rw [hperm, hcalls], by rw [hoff, hq]; rfl, ?_⟩
  rw [hdout, ← hbytes]
  simp [spongeSqueeze, List.take_take, hle]

/-- Settles O31: both outputs are beginnings of the same output blocks. -/
theorem outputIsBeginningOfLongerOutput : Obligations.OutputIsBeginningOfLongerOutput := by
  intro P s n n' hf hp hc hle
  have hk := (Nat.lt_mul_div_succ n'.toNat hc.1.1).le
  refine ⟨_, _, finalizeWith_run hf hp hc, finalizeWith_run hf hp hc, ?_⟩
  rw [finalized_dout_eq_spongeSqueeze hc hk, finalized_dout_eq_spongeSqueeze hc (Nat.le_trans hle hk),
    List.take_length_add_append, List.take_take, Nat.min_eq_left hle]

end Sys2Proof.Proofs

/-! The sponge function of 42_finalize.md R101: padding, the XOR of a block and the permutation of a full block on whole
states, and the hash computation of INIT, ABSORBs and FINALIZE. -/

namespace Sys2Proof.Proofs

open Sys2Proof.Machine Sys2Proof.Laws

variable {P : Lanes → Lanes} {s t : State} {r k j : Nat} {d : Byte} {m bs : List Byte} {outlen : Len}

/-! ### A block as lanes (20_memory.md R31) -/

theorem leNat_lt (bs : List Byte) : leNat bs < 256 ^ bs.length := by
  induction bs with
  | nil => simp [leNat]
  | cons b bs ih =>
    have hb : b.toNat < 256 := b.isLt
    rw [leNat, List.length_cons, Nat.pow_succ]
    omega

/-- Byte `j` of the little-endian number of a byte string is its entry `j`. -/
theorem leNat_byte (bs : List Byte) (j : Nat) : leNat bs / 256 ^ j % 256 = (bs.getD j 0#8).toNat := by
  induction bs generalizing j with
  | nil => simp [leNat]
  | cons b bs ih =>
    have hb : b.toNat < 256 := b.isLt
    cases j with
    | zero => simp only [leNat, Nat.pow_zero, Nat.div_one, List.getD_cons_zero]; omega
    | succ j =>
      have hdiv : (b.toNat + 256 * leNat bs) / 256 = leNat bs := by omega
      rw [leNat, Nat.pow_succ', ← Nat.div_div_eq_div_mul, hdiv, ih, List.getD_cons_succ]

theorem laneByte_ofNat_leNat (h : bs.length ≤ 8) (j : Nat) :
    laneByte (BitVec.ofNat 64 (leNat bs)) j = bs.getD j 0#8 := by
  have hlt : leNat bs < 2 ^ 64 :=
    Nat.lt_of_lt_of_le (leNat_lt bs) (Nat.pow_le_pow_right (n := 256) (by decide) h)
  apply BitVec.eq_of_toNat_eq
  rw [laneByte_toNat, BitVec.toNat_ofNat, Nat.mod_eq_of_lt hlt, leNat_byte]

/-- Byte `j` of lane `k` of a block is the block's byte `8*k + j`, and 0x00 past its end. -/
theorem laneByte_blockLanes (bs : List Byte) (hk : k < 25) (hj : j < 8) :
    laneByte (blockLanes bs)[k] j = bs.getD (8 * k + j) 0#8 := by
  have hlen : ((bs.drop (8 * k)).take 8).length ≤ 8 := List.length_take_le ..
  rw [blockLanes, Vector.getElem_ofFn, laneByte_ofNat_leNat hlen, List.getD_eq_getElem?_getD,
    List.getElem?_take_of_lt hj, List.getElem?_drop, ← List.getD_eq_getElem?_getD]

theorem laneByte_xorLanes (A B : Lanes) (hk : k < 25) (j : Nat) :
    laneByte (xorLanes A B)[k] j = laneByte A[k] j ^^^ laneByte B[k] j := by
  rw [xorLanes, Vector.getElem_ofFn]
  exact BitVec.extractLsb'_xor

/-- XORing a block into the buffer from its start on is XORing it into the lanes. -/
theorem lanes_xorBytes {mem : Memory} (hm : mem.wf) (hlen : bs.length ≤ 200) :
    (mem.xorBytes 0 bs).lanes = xorLanes mem.lanes (blockLanes bs) := by
  refine lanes_ext fun k hk j hj => ?_
  have ha : 8 * k + j < 200 := by omega
  rw [lanesByte_lanes _ ha, lanesByte_eq _ hk hj, laneByte_xorLanes _ _ hk, laneByte_blockLanes _ hk hj,
    ← lanesByte_eq _ hk hj, lanesByte_lanes _ ha, read_xorBytes hm (by omega)]
  split
  · rfl
  · next hout => rw [List.getD_eq_default _ _ (by omega), BitVec.xor_zero]

/-! ### Padding as the XOR of a string (R91, R101) -/

theorem spongePad_length {t : Nat} (ht : t < r) : (spongePad r t d).length = r - t := by
  rw [spongePad]
  split
  · next h => rw [h]; rfl
  · simp; omega

theorem getD_zeros_append (n i : Nat) (b : Byte) :
    (List.replicate n 0#8 ++ [b]).getD i 0#8 = if i = n then b else 0#8 := by
  rcases Nat.lt_trichotomy i n with hlt | rfl | hgt
  · rw [List.getD_append _ _ _ _ (by simpa using hlt), if_neg hlt.ne, List.getD_replicate _ hlt]
  · simp
  · rw [List.getD_eq_default _ _ (by simpa using hgt), if_neg hgt.ne']

/-- The bytes of the padding: the delimiter first, 0x80 last, both in one byte where the two meet. -/
theorem spongePad_getD {t : Nat} (ht : t < r) (i : Nat) :
    (spongePad r t d).getD i 0#8 = (if i = 0 then d else 0#8) ^^^ (if i = r - t - 1 then 0x80#8 else 0#8) := by
  rw [spongePad]
  split
  · next h1 => cases i <;> simp [h1]
  · next h1 =>
    cases i with
    | zero =>
      have hne : 0 ≠ r - t - 1 := by omega
      simp [hne]
    | succ i =>
      have hlast : i + 1 = r - t - 1 ↔ i = r - t - 2 := by omega
      rw [List.getD_cons_succ, getD_zeros_append, if_neg i.succ_ne_zero, BitVec.zero_xor]
      simp only [hlast]

/-- Padding XORs the sponge's padding into the buffer from the cursor on. -/
theorem pad_mem_eq (hm : s.mem.wf) (hc : s.cursorInBlock) :
    s.pad.mem = s.mem.xorBytes s.offset.toNat (spongePad s.rate.toNat s.offset.toNat s.delimiter) := by
  have hr := hc.1.2
  have hlt := hc.2
  have hlen := spongePad_length (d := s.delimiter) hlt
  have hin : s.offset.toNat + (spongePad s.rate.toNat s.offset.toNat s.delimiter).length ≤ 200 := by omega
  refine memory_ext (wf_pad hm hc) (wf_xorBytes hm hin) fun a => ?_
  rw [read_pad hm hc, read_xorBytes hm hin, hlen, spongePad_getD hlt, Nat.add_sub_cancel' hlt.le]
  by_cases ha : s.offset.toNat ≤ a ∧ a < s.rate.toNat
  · have hfirst : a - s.offset.toNat = 0 ↔ a = s.offset.toNat := by omega
    have hlast : a - s.offset.toNat = s.rate.toNat - s.offset.toNat - 1 ↔ a = s.rate.toNat - 1 := by omega
    rw [if_pos ha, BitVec.xor_assoc]
    simp only [hfirst, hlast]
  · rw [if_neg ha, if_neg (by omega), if_neg (by omega), BitVec.xor_zero, BitVec.xor_zero]

/-! ### What absorbing a string leaves alone (41_absorb.md R80) -/

@[simp] theorem absorbSerial_rate : (absorbSerial P bs s).rate = s.rate := by
  rw [absorbSerial_frame]

@[simp] theorem absorbSerial_delimiter : (absorbSerial P bs s).delimiter = s.delimiter := by
  rw [absorbSerial_frame]

@[simp] theorem absorbSerial_phase : (absorbSerial P bs s).phase = s.phase := by
  rw [absorbSerial_frame]

@[simp] theorem absorbSerial_fault : (absorbSerial P bs s).fault = s.fault := by
  rw [absorbSerial_frame]

@[simp] theorem absorbSerial_din : (absorbSerial P bs s).din = s.din := by
  rw [absorbSerial_frame]

@[simp] theorem absorbSerial_dout : (absorbSerial P bs s).dout = s.dout := by
  rw [absorbSerial_frame]

@[simp] theorem absorbSerial_accepted : (absorbSerial P bs s).accepted = s.accepted := by
  rw [absorbSerial_frame]

@[simp] theorem absorbSerial_dinTaken : (absorbSerial P bs s).dinTaken = s.dinTaken := by
  rw [absorbSerial_frame]

/-! ### Absorbing on whole states (R101) -/

/-- The state after a full block from the start of the buffer: the block XORed in, and a permutation
(41_absorb.md R86). -/
def absorbBlock (P : Lanes → Lanes) (bs : List Byte) (s : State) : State :=
  ((s.setMem (s.mem.xorBytes 0 bs)).permute P).setOffset 0#8

theorem cursorInBlock_of_start (ho : s.offset = 0#8) (hr : rateAccepted s.rate) : s.cursorInBlock :=
  ⟨hr, by rw [ho]; exact hr.1⟩

theorem absorbSerial_block (ho : s.offset = 0#8) (hr : rateAccepted s.rate) (hlen : bs.length = s.rate.toNat) :
    absorbSerial P bs s = absorbBlock P bs s := by
  have hne : bs ≠ [] := List.ne_nil_of_length_pos (hlen ▸ hr.1)
  have hin : s.offset.toNat + bs.length ≤ s.rate.toNat := by simp [ho, hlen]
  rw [absorbSerial_chunk hne (cursorInBlock_of_start ho hr) hin, permuteIfFull_of_full]
  · rw [ho]; rfl
  · simp [ho, hlen]

theorem lanes_absorbBlock (hm : s.mem.wf) (hlen : bs.length ≤ 200) :
    (absorbBlock P bs s).mem.lanes = P (xorLanes s.mem.lanes (blockLanes bs)) := by
  rw [← lanes_xorBytes hm hlen]
  exact lanes_ofLanes _

/-- Bytes that leave room, padded: the whole last block XORed into the lanes. -/
theorem lanes_pad_of_room (ho : s.offset = 0#8) (hm : s.mem.wf) (hr : rateAccepted s.rate)
    (hlt : m.length < s.rate.toNat) :
    (absorbSerial P m s).pad.mem.lanes =
      xorLanes s.mem.lanes (blockLanes (m ++ spongePad s.rate.toNat m.length s.delimiter)) := by
  have hc : s.cursorInBlock := cursorInBlock_of_start ho hr
  have ho' : s.offset.toNat = 0 := by rw [ho]; rfl
  have hroom := absorbSerial_of_room (P := P) (bs := m) hc (by rwa [ho', Nat.zero_add])
  have hoff : (absorbSerial P m s).offset.toNat = m.length := by
    rw [hroom, setOffset_offset, offset_add_toNat (by omega), ho', Nat.zero_add]
  have hmem : (absorbSerial P m s).mem = s.mem.xorBytes 0 m := by rw [hroom, ho]; rfl
  have happ := xorBytes_append s.mem 0 m (spongePad s.rate.toNat m.length s.delimiter)
  rw [Nat.zero_add] at happ
  rw [pad_mem_eq (wf_absorbSerial hm hc m) (absorbSerial_cursor hc m), hoff, hmem, absorbSerial_rate,
    absorbSerial_delimiter, ← happ, lanes_xorBytes hm]
  have hr200 := hr.2
  rw [List.length_append, spongePad_length hlt]
  omega

/-- A block in front of a message stays in front of the padded message. -/
theorem spongeMessage_append (hlen : bs.length = r) :
    spongeMessage r d (bs ++ m) = bs ++ spongeMessage r d m := by
  rw [spongeMessage, List.length_append, hlen, Nat.add_mod_left, List.append_assoc, spongeMessage]

theorem spongeMessage_of_lt (hlt : m.length < r) : spongeMessage r d m = m ++ spongePad r m.length d := by
  rw [spongeMessage, Nat.mod_eq_of_lt hlt]

theorem spongeAbsorb_append (hlen : bs.length = r) (n : Nat) (S : Lanes) :
    spongeAbsorb P r (n + 1) (bs ++ m) S = spongeAbsorb P r n m (P (xorLanes S (blockLanes bs))) := by
  rw [spongeAbsorb, List.take_left' hlen, List.drop_left' hlen]

/-- What is handed to the first permutation of a FINALIZE after the message `m`, permuted, is the sponge's state after
the last block of the padded message. -/
theorem permuted_pad_eq_spongeAbsorb (m : List Byte) (ho : s.offset = 0#8) (hm : s.mem.wf)
    (hr : rateAccepted s.rate) :
    P (absorbSerial P m s).pad.mem.lanes =
      spongeAbsorb P s.rate.toNat (m.length / s.rate.toNat + 1) (spongeMessage s.rate.toNat s.delimiter m)
        s.mem.lanes := by
  induction hq : m.length / s.rate.toNat generalizing m s with
  | zero =>
    have hlt : m.length < s.rate.toNat := (Nat.div_eq_zero_iff_lt hr.1).1 hq
    have hlen : (m ++ spongePad s.rate.toNat m.length s.delimiter).length = s.rate.toNat := by
      rw [List.length_append, spongePad_length hlt]; omega
    rw [spongeMessage_of_lt hlt, spongeAbsorb, spongeAbsorb, List.take_of_length_le hlen.le,
      lanes_pad_of_room ho hm hr hlt]
  | succ q ih =>
    have hle : s.rate.toNat ≤ m.length := by
      by_contra hlt
      rw [Nat.div_eq_of_lt (Nat.lt_of_not_le hlt)] at hq
      cases hq
    obtain ⟨b, m', rfl, hb⟩ : ∃ b m', m = b ++ m' ∧ b.length = s.rate.toNat :=
      ⟨_, _, (List.take_append_drop s.rate.toNat m).symm, List.length_take_of_le hle⟩
    have hq' : m'.length / s.rate.toNat = q := by
      rw [List.length_append, hb, Nat.add_div_left _ hr.1] at hq
      exact Nat.succ.inj hq
    have hrest := ih (s := absorbBlock P b s) m' rfl (wf_ofLanes _) hr hq'
    rw [lanes_absorbBlock hm (hb.trans_le hr.2)] at hrest
    rw [absorbSerial_append, absorbSerial_block ho hr hb, hrest, spongeMessage_append hb, spongeAbsorb_append hb]
    rfl

/-! ### A whole hash computation (R97, R98, R101) -/

theorem lanes_zeroed : Memory.zeroed.lanes = Vector.replicate 25 0#64 :=
  Vector.ext fun k hk => by rw [Memory.lanes, Vector.getElem_ofFn, Vector.getElem_replicate, lane_zeroed]

/-- The output of a FINALIZE after the message `m`, absorbed into an empty buffer (R101). -/
theorem finalized_absorbSerial_dout (lens : List Len) (m : List Byte) (ho : s.offset = 0#8)
    (hm : s.mem = Memory.zeroed) (hr : rateAccepted s.rate) :
    (finalized P outlen (takeAbsorbs lens (absorbSerial P m s))).dout =
      s.dout ++ sponge P s.rate.toNat s.delimiter m outlen.toNat := by
  have hc : (absorbSerial P m s).cursorInBlock := absorbSerial_cursor (cursorInBlock_of_start ho hr) m
  have hk : outlen.toNat ≤ (absorbSerial P m s).rate.toNat * (outlen.toNat / s.rate.toNat + 1) := by
    rw [absorbSerial_rate]; exact (Nat.lt_mul_div_succ _ hr.1).le
  calc (finalized P outlen (takeAbsorbs lens (absorbSerial P m s))).dout
    _ = (absorbSerial P m s).dout ++
        (spongeSqueeze P (absorbSerial P m s).rate.toNat (outlen.toNat / s.rate.toNat + 1)
          (P (absorbSerial P m s).pad.mem.lanes)).take outlen.toNat :=
      finalized_dout_eq_spongeSqueeze (s := takeAbsorbs lens (absorbSerial P m s)) hc hk
    _ = s.dout ++ sponge P s.rate.toNat s.delimiter m outlen.toNat := by
      rw [absorbSerial_dout, absorbSerial_rate, permuted_pad_eq_spongeAbsorb (P := P) m ho (hm ▸ wf_zeroed) hr, hm,
        lanes_zeroed, sponge]

/-- The permutations of a message and its FINALIZE: one for each full block, and those of the output (R98). -/
theorem finalized_absorbSerial_perm_length (lens : List Len) (m : List Byte) (ho : s.offset = 0#8)
    (hr : rateAccepted s.rate) :
    (finalized P outlen (takeAbsorbs lens (absorbSerial P m s))).perm.length =
      s.perm.length + m.length / s.rate.toNat + max 1 ((outlen.toNat + s.rate.toNat - 1) / s.rate.toNat) := by
  have hc := cursorInBlock_of_start ho hr
  obtain ⟨-, habs⟩ := absorbSerial_counts (P := P) hc m
  have hfin : (finalized P outlen (takeAbsorbs lens (absorbSerial P m s))).perm.length =
      (absorbSerial P m s).perm.length + 1 + (outlen.toNat - 1) / (absorbSerial P m s).rate.toNat :=
    (finalized_counts (s := takeAbsorbs lens (absorbSerial P m s)) (absorbSerial_cursor hc m)).2
  have ho' : s.offset.toNat = 0 := by rw [ho]; rfl
  rw [hfin, habs, absorbSerial_rate, ho', Nat.zero_add, max_one_ceil_div _ hr.1, Nat.add_assoc, Nat.add_comm 1]

theorem execAll_append {is js : List Instr} (h : execAll P is s = .next t) :
    execAll P (is ++ js) s = execAll P js t := by
  induction is generalizing s with
  | nil => cases h; rfl
  | cons i is ih =>
    rw [List.cons_append, execAll]
    rw [execAll] at h
    split at h
    · exact ih h
    · cases h
    · cases h

theorem execAll_single (i : Instr) (s : State) : execAll P [i] s = execWith P i s := by
  rw [execAll]
  cases execWith P i s <;> rfl

/-- ABSORB loads `cnt` with its own length, as FINALIZE does, so what `cnt` held before does not matter. -/
theorem absorbed_setCnt (c len : Len) : absorbed P len (s.setCnt c) = absorbed P len s := by
  rw [absorbed, absorbed, ← absorbSerial_dinTake_setCnt, ← absorbSerial_dinTake_setCnt]
  rfl

theorem finalized_setCnt (c outlen : Len) : finalized P outlen (s.setCnt c) = finalized P outlen s := rfl

/-- INIT leaves `cnt` as it was (assumption log 19), and no ABSORB or FINALIZE after it looks at that value. -/
theorem execAll_absorbs_finalize_setCnt (lens : List Len) (outlen c : Len) (hf : s.fault = false)
    (hp : s.phase = .absorbing) (hc : s.cursorInBlock) (hd : totalLen lens ≤ s.din.length) :
    execAll P (lens.map .absorb ++ [.finalize outlen]) (s.setCnt c) =
      execAll P (lens.map .absorb ++ [.finalize outlen]) s := by
  have hcc : (s.setCnt c).cursorInBlock := hc
  cases lens with
  | nil =>
    have hrun : execWith P (.finalize outlen) (s.setCnt c) = execWith P (.finalize outlen) s := by
      rw [execWith, finalizeWith_run hf hp hc, ← finalized_setCnt c outlen]
      exact finalizeWith_run (s := s.setCnt c) hf hp hcc
    simp only [List.map_nil, List.nil_append, execAll, hrun]
  | cons len lens =>
    rw [totalLen_cons] at hd
    have hpay : s.payloadReady len := Nat.le_trans (Nat.le_add_right ..) hd
    have hrun : execWith P (.absorb len) (s.setCnt c) = execWith P (.absorb len) s := by
      rw [execWith, absorbWith_run hf hp hc hpay, ← absorbed_setCnt c len]
      exact absorbWith_run (s := s.setCnt c) hf hp hcc hpay
    simp only [List.map_cons, List.cons_append, execAll, hrun]

theorem execWith_finalize_takeAbsorbs (lens : List Len) (outlen : Len) (hf : s.fault = false)
    (hp : s.phase = .absorbing) (hc : s.cursorInBlock) :
    execWith P (.finalize outlen) (takeAbsorbs lens (absorbSerial P bs s)) =
      .next (finalized P outlen (takeAbsorbs lens (absorbSerial P bs s))) :=
  finalizeWith_run (absorbSerial_fault.trans hf) (absorbSerial_phase.trans hp) (absorbSerial_cursor hc bs)

/-- ABSORBs and a FINALIZE complete: the payloads absorbed as one string, then the output. -/
theorem execAll_absorbs_finalize (lens : List Len) (outlen : Len) (hf : s.fault = false) (hp : s.phase = .absorbing)
    (hc : s.cursorInBlock) (hd : totalLen lens ≤ s.din.length) :
    execAll P (lens.map .absorb ++ [.finalize outlen]) s =
      .next (finalized P outlen
        (takeAbsorbs lens (absorbSerial P (s.din.take (totalLen lens)) (s.setCnt 0#24)))) := by
  have habs := execAll_absorbs (P := P) (s := s.setCnt 0#24) lens hf hp hc rfl hd
  rw [← execAll_absorbs_finalize_setCnt lens outlen 0#24 hf hp hc hd, execAll_append habs, execAll_single]
  exact execWith_finalize_takeAbsorbs (s := s.setCnt 0#24) lens outlen hf hp hc

/-- What an accepted INIT constructs, with `cnt` put at 0: the state the message is absorbed from. -/
def freshInstance (rate delim : Byte) (s : State) : State :=
  ((s.accept (.init rate delim)).construct rate delim).setCnt 0#24

/-- INIT, ABSORBs and a FINALIZE complete, whatever the engine did before. -/
theorem execAll_hash {rate : Byte} (delim : Byte) {rest : List Byte} (lens : List Len) (outlen : Len)
    (hf : s.fault = false) (hr : rateAccepted rate) (hdin : s.din = m ++ rest) (hsum : totalLen lens = m.length) :
    execAll P (.init rate delim :: (lens.map .absorb ++ [.finalize outlen])) s =
      .next (finalized P outlen (takeAbsorbs lens (absorbSerial P m (freshInstance rate delim s)))) := by
  have hinit : execWith P (.init rate delim) s = .next ((s.accept (.init rate delim)).construct rate delim) :=
    exec_init_of_rateAccepted hf hr
  have hd : totalLen lens ≤ s.din.length := by simp [hsum, hdin]
  have hm : s.din.take (totalLen lens) = m := by rw [hdin, hsum, List.take_left]
  have hrun := execAll_absorbs_finalize (P := P) (s := (s.accept (.init rate delim)).construct rate delim) lens outlen
    hf rfl ⟨hr, hr.1⟩ hd
  rw [execAll, hinit]
  exact hm ▸ hrun

/-- Settles O32: the commands absorb the message as one string, and FINALIZE's output is the sponge's
on that message. -/
theorem hashIsTheSpongeFunction : Obligations.HashIsTheSpongeFunction := by
  intro P s rate delim m rest lens outlen hf h1 h200 hdin hsum
  have hsum : totalLen lens = m.length := hsum
  have hr : rateAccepted rate := ⟨h1, h200⟩
  refine ⟨_, execAll_hash delim lens outlen hf hr hdin hsum,
    finalized_absorbSerial_dout (s := freshInstance rate delim s) lens m rfl rfl hr, ?din, rfl, ?dinTaken, ?accepted,
    finalized_absorbSerial_perm_length (s := freshInstance rate delim s) lens m rfl hr⟩
  case din => simp [takeAbsorbs, freshInstance, hdin, hsum]
  case dinTaken => simp [takeAbsorbs, freshInstance, hdin, hsum]
  case accepted => simp [takeAbsorbs, freshInstance]

end Sys2Proof.Proofs

/-! The obligations of 43_permutation_port.md about the port: what a permutation reads and writes (R105), and when a
step invokes it (R107). -/

namespace Sys2Proof.Proofs

open Sys2Proof.Machine Sys2Proof.Laws

variable {P : Lanes → Lanes} {s t : State} {len outlen : Len}

/-! ### What a permutation reads and writes (R105) -/

theorem lanes_getElem (m : Memory) (k : Fin 25) : m.lanes[k] = m.lane k := Vector.getElem_ofFn k.isLt

/-- Settles O48: the buffer written holds the lanes `P` answers, and `permute` writes two fields. -/
theorem permuteReplacesAllLanes : Obligations.PermuteReplacesAllLanes := fun P s =>
  ⟨lanes_ofLanes (P s.mem.lanes), rfl, lanes_getElem s.mem⟩

/-! ### When a step invokes the permutation (R107) -/

/-- The invocations of an ABSORB that runs, counted (41_absorb.md R83). -/
theorem absorbed_calls (hc : s.cursorInBlock) (hd : s.payloadReady len) :
    ∃ calls, (absorbed P len s).perm = s.perm ++ calls ∧
      calls.length = (s.offset.toNat + len.toNat) / s.rate.toNat := by
  obtain ⟨calls, hcalls⟩ := absorbed_perm_extends P len s
  obtain ⟨-, hcount⟩ := absorbed_counts (P := P) hc hd
  rw [hcalls, List.length_append] at hcount
  exact ⟨calls, hcalls, Nat.add_left_cancel hcount⟩

/-- The invocations of an accepted FINALIZE, counted (42_finalize.md R98). -/
theorem finalized_calls (hc : s.cursorInBlock) :
    ∃ calls, (finalized P outlen s).perm = s.perm ++ calls ∧
      calls.length = max 1 ((outlen.toNat + s.rate.toNat - 1) / s.rate.toNat) := by
  obtain ⟨calls, hcalls⟩ := finalized_perm_first P outlen s
  obtain ⟨-, hcount⟩ := finalized_counts (P := P) (outlen := outlen) hc
  rw [hcalls, List.length_append, Nat.add_assoc] at hcount
  refine ⟨_, hcalls, (Nat.add_left_cancel hcount).trans ?_⟩
  rw [max_one_ceil_div outlen.toNat hc.1.1, Nat.add_comm]

/-- Settles O43: of what a step can do only an ABSORB and a FINALIZE that run reach the port, and an ABSORB that stays
inside its block invokes it no times. -/
theorem permutationIsInvokedOnlyAtItsPoints : Obligations.PermutationIsInvokedOnlyAtItsPoints := by
  intro s t hr h
  obtain rfl | rfl | ⟨w, rest, i, hcmd, hdec, hx⟩ := step_next_of_not_rst hr h
  · exact ⟨[], (List.append_nil _).symm, .inl rfl⟩
  · exact ⟨[], (List.append_nil _).symm, .inl rfl⟩
  · cases exec_effect hx with
    | unchanged => exact ⟨[], (List.append_nil _).symm, .inl rfl⟩
    | faulted => exact ⟨[], (List.append_nil _).symm, .inl rfl⟩
    | init => exact ⟨[], (List.append_nil _).symm, .inl rfl⟩
    | @absorb len hf hp hc hd =>
      obtain ⟨calls, hcalls, hcount⟩ := absorbed_calls (P := Config.P) hc hd
      refine ⟨calls, hcalls, ?_⟩
      rcases Nat.lt_or_ge (s.offset.toNat + len.toNat) s.rate.toNat with hlt | hge
      · exact .inl (List.eq_nil_of_length_eq_zero (hcount.trans (Nat.div_eq_of_lt hlt)))
      · exact .inr ⟨w, rest, hcmd, hf, hp, .inl ⟨len, hdec, hge, hcount⟩⟩
    | @finalize outlen hf hp hc =>
      obtain ⟨calls, hcalls, hcount⟩ := finalized_calls (P := Config.P) (outlen := outlen) hc
      exact ⟨calls, hcalls, .inr ⟨w, rest, hcmd, hf, hp, .inr ⟨outlen, hdec, hcount⟩⟩⟩

end Sys2Proof.Proofs

/-! The obligations of 43_permutation_port.md about Keccak-f[1600]: where rho and pi put each lane (R112), and that the
permutation is a bijection (R106, R116). Each step of a round is shown injective; on finitely many states that is
enough. -/

namespace Sys2Proof.Proofs

open Sys2Proof.Machine Sys2Proof.Laws

/-! ### Rotations -/

/-- A bit of a rotated lane is the bit `n` places below it, counted round. -/
theorem rotl64_getLsbD (v : Lane) (n : Nat) {i : Nat} (hi : i < 64) :
    (rotl64 v n).getLsbD i = v.getLsbD ((i + (64 - n % 64)) % 64) := by
  rw [rotl64, BitVec.getLsbD_rotateLeft]
  rcases Nat.lt_or_ge i (n % 64) with hlt | hge
  · have hpos : (i + (64 - n % 64)) % 64 = 64 - n % 64 + i := by omega
    simp [hlt, hpos]
  · have hpos : (i + (64 - n % 64)) % 64 = i - n % 64 := by omega
    simp [Nat.not_lt.2 hge, hi, hpos]

theorem rotl64_xor (v w : Lane) (n : Nat) : rotl64 (v ^^^ w) n = rotl64 v n ^^^ rotl64 w n :=
  BitVec.eq_of_getLsbD_eq fun i hi => by simp only [BitVec.getLsbD_xor, rotl64_getLsbD _ n hi]

theorem rotl64_rotl64 (v : Lane) (m n : Nat) : rotl64 (rotl64 v m) n = rotl64 v (m + n) :=
  BitVec.eq_of_getLsbD_eq fun i hi => by
    rw [rotl64_getLsbD _ n hi, rotl64_getLsbD _ m (Nat.mod_lt _ (by omega)), rotl64_getLsbD _ _ hi]
    congr 1
    omega

theorem rotl64_mul_64 (v : Lane) (n : Nat) : rotl64 v (64 * n) = v :=
  BitVec.eq_of_getLsbD_eq fun i hi => by
    have hpos : (i + (64 - 64 * n % 64)) % 64 = i := by omega
    rw [rotl64_getLsbD _ _ hi, hpos]

/-- A rotation done 64 times is none, so 63 more undo one. -/
theorem rotl64_injective (n : Nat) : Function.Injective fun v => rotl64 v n :=
  Function.LeftInverse.injective (g := fun v => rotl64 v (63 * n)) fun v => by
    have hn : n + 63 * n = 64 * n := by omega
    show rotl64 (rotl64 v n) (63 * n) = v
    rw [rotl64_rotl64, hn, rotl64_mul_64]

/-! ### rho and pi (R112) -/

/-- rho and pi read from the source's side: lane `k` goes to `piDest k`, rotated by its own offset. -/
theorem rhoPi_piDest (A : Lanes) (k : Fin 25) : (rhoPi A)[piDest k] = rotl64 A[k] rhoOffset[k] := by
  have h : (rhoPi A)[piDest k] = rotl64 A[piSource (piDest k)] rhoOffset[piSource (piDest k)] :=
    Vector.getElem_ofFn (piDest k).isLt
  simp only [h, piSource_piDest]

theorem piDest_bijective : Function.Bijective piDest :=
  Function.bijective_iff_has_inverse.2 ⟨piSource, piSource_piDest, piDest_piSource⟩

/-- The destination as R112 writes it: both coordinates are below 5 already, or taken mod 5. -/
theorem piDest_val (k : Fin 25) :
    (piDest k).val = k.val / 5 + 5 * ((2 * (k.val % 5) + 3 * (k.val / 5)) % 5) := by
  have hy : k.val / 5 % 5 = k.val / 5 := by omega
  simp only [piDest, laneIndex, hy]

/-- Settles O50: `piSource` is the inverse of `piDest`, so reading by destinations is writing by sources. -/
theorem rhoPiMovesEachLaneOnce : Obligations.RhoPiMovesEachLaneOnce :=
  ⟨rhoPi_piDest, piDest_val, piDest_bijective⟩

theorem lanes_ext_fin {A B : Lanes} (h : ∀ k : Fin 25, A[k] = B[k]) : A = B :=
  Vector.ext fun k hk => h ⟨k, hk⟩

theorem rhoPi_injective : Function.Injective rhoPi := fun A B h =>
  lanes_ext_fin fun k => rotl64_injective rhoOffset[k] (by
    show rotl64 A[k] rhoOffset[k] = rotl64 B[k] rhoOffset[k]
    rw [← rhoPi_piDest, h, rhoPi_piDest])

/-! ### theta (R111) -/

/-- With the library's `xor_assoc` and `xor_comm` this sorts a XOR, so that equal lanes meet and cancel. -/
theorem xor_left_comm (u v w : Lane) : u ^^^ (v ^^^ w) = v ^^^ (u ^^^ w) := by ac_rfl

/-- What theta does to the five column parities, for neighbours at the distance `d` and a rotation by `r`; theta's own
distance and rotation are 1 (`columnParity_theta`). -/
def mixColumns (d : Fin 5) (r : Nat) (C : Fin 5 → Lane) : Fin 5 → Lane :=
  fun x => C x ^^^ C (x - d) ^^^ rotl64 (C (x + d)) r

/-- Over XOR the square of a sum is the sum of the squares: done twice, the distance and the rotation double. -/
theorem mixColumns_mixColumns (d : Fin 5) (r : Nat) (C : Fin 5 → Lane) :
    mixColumns d r (mixColumns d r C) = mixColumns (d + d) (r + r) C := by
  funext x
  simp only [mixColumns, rotl64_xor, rotl64_rotl64, sub_add_cancel, add_sub_cancel_right, sub_sub, add_assoc]
  simp [BitVec.xor_assoc, BitVec.xor_comm, xor_left_comm]

/-- With rotations by whole turns a third time is the identity, since five steps of any distance come back. -/
theorem mixColumns_leftInverse (d : Fin 5) : Function.LeftInverse (mixColumns (d + d) 128) (mixColumns d 64) := by
  intro C
  funext x
  have hturn (v : Lane) : rotl64 v 64 = v := rotl64_mul_64 v 1
  have hturns (v : Lane) : rotl64 v 128 = v := rotl64_mul_64 v 2
  have hback : ∀ d x : Fin 5, x - (d + d) - d = x + (d + d) ∧ x - (d + d) = x + (d + d) + d := by decide
  obtain ⟨h3, h2⟩ := hback d x
  have h1 : x - (d + d) + d = x - d := by rw [← sub_sub, sub_add_cancel]
  have h1' : x + (d + d) - d = x + d := by rw [← add_assoc, add_sub_cancel_right]
  simp only [mixColumns, hturn, hturns, h1, h1', h3, ← h2]
  simp [BitVec.xor_assoc, BitVec.xor_comm, xor_left_comm]

theorem mixColumns_injective_of_double {d : Fin 5} {r : Nat} (h : Function.Injective (mixColumns (d + d) (r + r))) :
    Function.Injective (mixColumns d r) := by
  have hcomp : mixColumns d r ∘ mixColumns d r = mixColumns (d + d) (r + r) := funext (mixColumns_mixColumns d r)
  exact Function.Injective.of_comp (hcomp ▸ h)

/-- Six doublings make the rotation by 1 a whole turn. -/
theorem mixColumns_injective : Function.Injective (mixColumns 1 1) := by
  have hturn : Function.Injective (mixColumns 4 64) := (mixColumns_leftInverse 4).injective
  iterate 6 refine mixColumns_injective_of_double ?_
  exact hturn

theorem columnParity_get (A : Lanes) (x : Fin 5) :
    (columnParity A).get x =
      A[laneIndex x 0] ^^^ A[laneIndex x 1] ^^^ A[laneIndex x 2] ^^^ A[laneIndex x 3] ^^^ A[laneIndex x 4] :=
  Vector.getElem_ofFn x.isLt

theorem columnMix_get (C : Vector Lane 5) (x : Fin 5) :
    (columnMix C).get x = C.get (x - 1) ^^^ rotl64 (C.get (x + 1)) 1 := by
  have hx : ∀ x : Fin 5, x + 4 = x - 1 := by decide
  rw [← hx]
  exact Vector.getElem_ofFn x.isLt

theorem theta_getElem (A : Lanes) (k : Fin 25) :
    (theta A)[k] = A[k] ^^^ (columnMix (columnParity A)).get (Fin.ofNat 5 k) :=
  Vector.getElem_ofFn k.isLt

/-- theta adds one lane to all five of a column. -/
theorem theta_column (A : Lanes) (x : Fin 5) (y : Nat) :
    (theta A)[laneIndex x y] = A[laneIndex x y] ^^^ (columnMix (columnParity A)).get x := by
  have hx : Fin.ofNat 5 (laneIndex x y) = x := Fin.ext (by simp [laneIndex])
  rw [theta_getElem, hx]

/-- A column has five lanes, so the lane added to each is added to the parity once. -/
theorem columnParity_theta (A : Lanes) :
    (columnParity (theta A)).get = mixColumns 1 1 (columnParity A).get := by
  funext x
  rw [columnParity_get, mixColumns, BitVec.xor_assoc ((columnParity A).get x), ← columnMix_get, columnParity_get A]
  simp only [theta_column]
  simp [BitVec.xor_assoc, BitVec.xor_comm, xor_left_comm]

/-- theta keeps the parities apart, and lanes of equal parities get the same lane added. -/
theorem theta_injective : Function.Injective theta := by
  intro A B h
  have hget : (columnParity A).get = (columnParity B).get :=
    mixColumns_injective (by rw [← columnParity_theta, ← columnParity_theta, h])
  have hparity : columnParity A = columnParity B := Vector.ext fun x hx => congrFun hget ⟨x, hx⟩
  refine lanes_ext_fin fun k => ?_
  have hk : (theta A)[k] = (theta B)[k] := by rw [h]
  rwa [theta_getElem, theta_getElem, hparity, BitVec.xor_left_inj] at hk

/-! ### chi (R113) -/

/-- The lane `i` places on from `k` in its row, counted round. -/
def rowLane (E : Lanes) (k : Fin 25) (i : Nat) : Lane := E[laneIndex (k + i) (k / 5)]

theorem rowLane_zero (E : Lanes) (k : Fin 25) : rowLane E k 0 = E[k] := by
  have hk : laneIndex (k + 0) (k / 5) = k := Fin.ext (by simp [laneIndex]; omega)
  exact congrArg E.get hk

theorem rowLane_add_five (E : Lanes) (k : Fin 25) (i : Nat) : rowLane E k (i + 5) = rowLane E k i := by
  have hk : laneIndex (k + (i + 5)) (k / 5) = laneIndex (k + i) (k / 5) := Fin.ext (by simp [laneIndex]; omega)
  exact congrArg E.get hk

theorem chi_getElem (E : Lanes) (k : Fin 25) :
    (chi E)[k] = E[k] ^^^ (~~~rowLane E k 1 &&& rowLane E k 2) :=
  Vector.getElem_ofFn k.isLt

theorem rowLane_rowIndex (E : Lanes) (k : Fin 25) (i j : Nat) :
    rowLane E (laneIndex (k + i) (k / 5)) j = rowLane E k (i + j) := by
  have hk : laneIndex (laneIndex (k + i) (k / 5) + j) (laneIndex (k + i) (k / 5) / 5) =
      laneIndex (k + (i + j)) (k / 5) := Fin.ext (by simp [laneIndex]; omega)
  exact congrArg E.get hk

theorem rowLane_chi (E : Lanes) (k : Fin 25) (i : Nat) :
    rowLane (chi E) k i = rowLane E k i ^^^ (~~~rowLane E k (i + 1) &&& rowLane E k (i + 2)) := by
  rw [rowLane, chi_getElem, rowLane_rowIndex, rowLane_rowIndex]
  rfl

/-- chi on the five bits of one row, undone for the first of them. -/
theorem chiBits_inverse : ∀ a b c d e : Bool,
    ((a ^^ (!b && c)) ^^ (!(b ^^ (!c && d)) && ((c ^^ (!d && e)) ^^ (!(d ^^ (!e && a)) && (e ^^ (!a && b)))))) = a := by
  decide

/-- Each lane before chi is a function of the five lanes of its row after chi. -/
theorem lane_of_chi (E : Lanes) (k : Fin 25) :
    rowLane (chi E) k 0 ^^^ (~~~rowLane (chi E) k 1 &&&
      (rowLane (chi E) k 2 ^^^ (~~~rowLane (chi E) k 3 &&& rowLane (chi E) k 4))) = E[k] := by
  rw [← rowLane_zero E k]
  simp only [rowLane_chi, Nat.reduceAdd, rowLane_add_five E k 0, rowLane_add_five E k 1]
  ext z hz
  simp only [BitVec.getElem_xor, BitVec.getElem_and, BitVec.getElem_not]
  exact chiBits_inverse _ _ _ _ _

theorem chi_injective : Function.Injective chi := fun E F h =>
  lanes_ext_fin fun k => by rw [← lane_of_chi E k, h, lane_of_chi F k]

/-! ### iota, the rounds and the permutation (R110, R114) -/

/-- iota with the same round constant undoes itself. -/
theorem iota_iota (A : Lanes) (rc : Lane) : iota (iota A rc) rc = A := by
  simp [iota]

theorem iota_injective (rc : Lane) : Function.Injective fun A => iota A rc :=
  Function.Involutive.injective fun A => iota_iota A rc

theorem keccakRound_injective (rc : Lane) : Function.Injective fun A => keccakRound A rc :=
  (iota_injective rc).comp (chi_injective.comp (rhoPi_injective.comp theta_injective))

theorem rounds_injective (rcs : List Lane) : Function.Injective (rcs.foldl keccakRound) := by
  induction rcs with
  | nil => exact Function.injective_id
  | cons rc rcs ih => exact ih.comp (keccakRound_injective rc)

theorem keccakF1600_injective : Function.Injective keccakF1600 := by
  unfold keccakF1600
  exact rounds_injective roundConstants

theorem finite_lanes : Finite Lanes :=
  Finite.of_injective (fun (A : Lanes) (k : Fin 25) => A[k]) fun _ _ h => lanes_ext_fin (congrFun h)

/-- Settles O51: every step of every round is injective, and there are finitely many states. -/
theorem machinePermutationIsBijective : Obligations.MachinePermutationIsBijective := by
  have hfinite := finite_lanes
  exact Finite.injective_iff_bijective.1 keccakF1600_injective

end Sys2Proof.Proofs

/-! The obligations of 60_exceptions.md: the order of the checks (R127), fault entry (R124), the halted state (R125) and
the return from it (R126), several engines (R133), and what FINALIZE reads (R135). -/

namespace Sys2Proof.Proofs

open Sys2Proof.Machine Sys2Proof.Laws

variable {P : Lanes → Lanes} {s s' t t' u u' : State} {w : Word} {rest : List Word} {i : Instr}

/-! ### The cause of a word (R127) -/

theorem causeOf_illegal {e : Illegal} (hd : decode w = .error e) : s.causeOf w = .illegalCommand := by
  simp only [State.causeOf, hd]

theorem causeOf_init {rate delim : Byte} (hd : decode w = .ok (.init rate delim)) :
    s.causeOf w = if rateAccepted rate then .none else .badRate := by
  simp only [State.causeOf, hd]

/-- The cause the phase check records, of ABSORB and FINALIZE alike (41_absorb.md R81, 42_finalize.md R99). -/
def phaseCause : Phase → Cause
  | .idle => .notConstructed
  | .consumed => .useAfterFinalize
  | .absorbing => .none
  | .squeezing => .none

theorem causeOf_absorb {len : Len} (hd : decode w = .ok (.absorb len)) : s.causeOf w = phaseCause s.phase := by
  cases hp : s.phase <;> simp only [State.causeOf, hd, hp, phaseCause]

theorem causeOf_finalize {outlen : Len} (hd : decode w = .ok (.finalize outlen)) :
    s.causeOf w = phaseCause s.phase := by
  cases hp : s.phase <;> simp only [State.causeOf, hd, hp, phaseCause]

/-! ### The checks decide what a step does to `fault` and `cause` (R124, R127) -/

/-- What a word whose checks give the cause `c` makes of `s`: with no cause `fault` and `cause` stay, and with one the
word is taken and the fault raised. -/
inductive Judged (s : State) (c : Cause) (t : State) : Prop
  | passed (hc : c = .none) (hfault : t.fault = s.fault) (hcause : t.cause = s.cause)
  | faulted (hc : c ≠ .none) (ht : t = s.takeCmd.raise c)

theorem exec_judged (hf : s.fault = false) (hd : decode w = .ok i) (h : exec i s = .next t) :
    Judged s (s.causeOf w) t := by
  cases i with
  | init rate delim =>
    rw [causeOf_init hd]
    obtain ⟨hf', -⟩ | ⟨-, hr, rfl⟩ | ⟨-, hr, rfl⟩ := exec_init_next h
    · rw [hf] at hf'; cases hf'
    · exact .passed (if_pos hr) rfl rfl
    · rw [if_neg hr]
      exact .faulted nofun rfl
  | absorb len =>
    rw [causeOf_absorb hd]
    obtain ⟨hf', -⟩ | ⟨-, hp, rfl⟩ | ⟨-, hp, rfl⟩ | ⟨-, hp, -, -, rfl⟩ | ⟨-, hp, -, -, rfl⟩ := exec_absorb_next h
    · rw [hf] at hf'; cases hf'
    · rw [hp]; exact .faulted nofun rfl
    · rw [hp]; exact .faulted nofun rfl
    · rw [hp]; exact .passed rfl rfl rfl
    · rw [hp]; exact .passed rfl (absorbed_fault ..) (absorbed_cause ..)
  | finalize outlen =>
    rw [causeOf_finalize hd]
    obtain ⟨hf', -⟩ | ⟨-, hp, rfl⟩ | ⟨-, hp, rfl⟩ | ⟨-, hp, -, rfl⟩ := exec_finalize_next h
    · rw [hf] at hf'; cases hf'
    · rw [hp]; exact .faulted nofun rfl
    · rw [hp]; exact .faulted nofun rfl
    · rw [hp]; exact .passed rfl (finalized_fault ..) (finalized_cause ..)

theorem step_judged (hr : s.rst = false) (hf : s.fault = false) (hc : s.cmd = w :: rest) (h : step s = .next t) :
    Judged s (s.causeOf w) t := by
  cases hd : decode w with
  | error e =>
    rw [step_of_illegal hr hf hc hd] at h
    cases h
    rw [causeOf_illegal hd]
    exact .faulted nofun rfl
  | ok i =>
    rw [step_of_decode hr hf hc hd] at h
    exact exec_judged hf hd h

/-- Settles O36: a halted step does nothing, and a running one does what the checks decide. -/
theorem faultCauseFollowsPriority : Obligations.FaultCauseFollowsPriority := by
  refine ⟨fun s t hf hr h => ?_, fun s t w rest hr hf hcause hc h => ?_⟩
  · rw [step_of_halted hr hf] at h; cases h; rfl
  · cases step_judged hr hf hc h with
    | passed hnone hfault' hcause' => simp [hnone, hfault', hcause', hf, hcause]
    | faulted hsome ht => subst ht; exact ⟨rfl, iff_of_true rfl hsome⟩

/-- Settles O37: a reset and a wait raise no fault, so a word was judged, and not passed. -/
theorem faultEntryChangesNothingElse : Obligations.FaultEntryChangesNothingElse := by
  refine ⟨fun s t h hf ht => ?_, rfl⟩
  cases hr : s.rst with
  | true => rw [step_of_rst hr] at h; cases h; cases ht
  | false =>
    cases hc : s.cmd with
    | nil => rw [step_of_cmd_nil hr hc] at h; cases h; rw [hf] at ht; cases ht
    | cons w rest =>
      cases step_judged hr hf hc h with
      | passed _ hfault => rw [hfault, hf] at ht; cases ht
      | faulted hsome ht' =>
        refine ⟨w, rest, rfl, hsome, ht'.trans ?_⟩
        simp only [State.takeCmd, State.raise, hc, hr, List.tail_cons]

/-! ### The halted state and the return from it (R125, R126) -/

/-- Settles O9: `step` and every command begin with the halted check, and `status` has a field for each register. -/
theorem haltedEngineDoesNothing : Obligations.HaltedEngineDoesNothing := by
  intro s hf
  obtain ⟨-, -, -, -, hfault, hcause, -⟩ := status_fields s.toEngine
  exact ⟨fun hr => step_of_halted hr hf, exec_of_halted hf, by rw [hfault, hf]; rfl, hcause⟩

/-- Settles O38: a step from the halted state is a reset or changes nothing. -/
theorem onlyResetEndsAFault : Obligations.OnlyResetEndsAFault := by
  refine ⟨fun s t h hf ht => ?_, fun s t h hf hr => ?_, fun _ => step_of_rst, rfl, rfl⟩
  · cases hr : s.rst with
    | true => rw [step_of_rst hr] at h; cases h; exact ⟨rfl, rfl⟩
    | false => rw [step_of_halted hr hf] at h; cases h; rw [hf] at ht; cases ht
  · rw [step_of_halted hr hf] at h; cases h; exact ⟨hf, rfl⟩

/-! ### Several engines (R133) -/

/-- A step of engine `k` puts at `k` what that engine's own step answers, if there is an engine `k`. -/
theorem stepEngine_next {k : Nat} {engines after : List State} :
    stepEngine k engines = .next after ↔
      ∃ t, (∀ s, engines[k]? = some s → step s = .next t) ∧ after = engines.set k t := by
  cases hk : engines[k]? with
  | none =>
    have hset (t : State) : engines.set k t = engines := List.set_eq_of_length_le (List.getElem?_eq_none_iff.1 hk)
    simp only [stepEngine, hk, hset, Host.Outcome.next.injEq, eq_comm (a := engines)]
    exact ⟨fun h => ⟨State.reset, nofun, h⟩, fun ⟨_, _, h⟩ => h⟩
  | some s =>
    cases hs : step s <;> simp [stepEngine, hk, hs, eq_comm]

/-- Settles O46: a step writes one place of the list, and writes at two places commute. -/
theorem enginesAreIndependent : Obligations.EnginesAreIndependent := by
  refine ⟨fun k engines after h => ?_, fun j k engines a b hjk ha hb => ?_⟩
  · obtain ⟨t, hstep, rfl⟩ := stepEngine_next.1 h
    refine ⟨List.length_set, fun j hj => List.getElem?_set_ne hj.symm, fun s hs => ⟨t, hstep s hs, ?_⟩⟩
    obtain ⟨hlt, -⟩ := List.getElem?_eq_some_iff.1 hs
    exact List.getElem?_set_self hlt
  · obtain ⟨t, ht, rfl⟩ := stepEngine_next.1 ha
    obtain ⟨u, hu, rfl⟩ := stepEngine_next.1 hb
    refine ⟨(engines.set j t).set k u, stepEngine_next.2 ⟨u, ?_, rfl⟩, stepEngine_next.2 ⟨t, ?_, ?_⟩⟩
    · rwa [List.getElem?_set_ne hjk]
    · rwa [List.getElem?_set_ne hjk.symm]
    · exact List.set_comm t u hjk

/-! ### FINALIZE reads only the instance (R135) -/

/-- The instances in two states are the same. -/
structure SameInstance (s s' : State) : Prop where
  mem : s.mem = s'.mem
  rate : s.rate = s'.rate
  delimiter : s.delimiter = s'.delimiter
  offset : s.offset = s'.offset

/-- From `s` to `t` and from `s'` to `t'` the same bytes were delivered and the same permutations invoked, and the
instances left are the same. -/
structure SameEffect (s s' t t' : State) : Prop where
  inst : SameInstance t t'
  dout : ∃ out, t.dout = s.dout ++ out ∧ t'.dout = s'.dout ++ out
  perm : ∃ calls, t.perm = s.perm ++ calls ∧ t'.perm = s'.perm ++ calls

theorem SameEffect.refl (h : SameInstance s s') : SameEffect s s' s s' :=
  ⟨h, ⟨[], by simp⟩, ⟨[], by simp⟩⟩

theorem SameEffect.trans (h : SameEffect s s' t t') (h' : SameEffect t t' u u') : SameEffect s s' u u' := by
  obtain ⟨-, ⟨out, ho, ho'⟩, ⟨calls, hc, hc'⟩⟩ := h
  obtain ⟨hinst, ⟨out₂, ho₂, ho₂'⟩, ⟨calls₂, hc₂, hc₂'⟩⟩ := h'
  exact ⟨hinst, ⟨out ++ out₂, by simp [ho₂, ho], by simp [ho₂', ho']⟩,
    ⟨calls ++ calls₂, by simp [hc₂, hc], by simp [hc₂', hc']⟩⟩

theorem permute_sameEffect (h : SameInstance s s') (o : Byte) :
    SameEffect s s' ((s.permute P).setOffset o) ((s'.permute P).setOffset o) := by
  obtain ⟨hm, hr, hd, -⟩ := h
  exact ⟨⟨by simp [hm], hr, hd, rfl⟩, ⟨[], by simp⟩, ⟨[s.mem.lanes], rfl, by simp [hm]⟩⟩

theorem permuteIfFull_sameEffect (h : SameInstance s s') :
    SameEffect s s' (s.permuteIfFull P) (s'.permuteIfFull P) := by
  simp only [State.permuteIfFull, ← h.offset, ← h.rate]
  split
  · exact permute_sameEffect h 0#8
  · exact .refl h

/-- Deliver the byte at the cursor and move on: what is left of a byte of the squeeze after the check for an exhausted
block (42_finalize.md R103). -/
def deliverByte (s : State) : State :=
  ((s.doutPut [s.mem.read s.offset.toNat]).setOffset (s.offset + 1#8)).setCnt (s.cnt - 1#24)

theorem squeezeByte_eq_deliverByte (P : Lanes → Lanes) (s : State) :
    s.squeezeByte P = deliverByte (s.permuteIfFull P) := rfl

theorem deliverByte_sameEffect (h : SameInstance s s') : SameEffect s s' (deliverByte s) (deliverByte s') := by
  obtain ⟨hm, hr, hd, ho⟩ := h
  exact ⟨⟨hm, hr, hd, congrArg (· + 1#8) ho⟩, ⟨[s.mem.read s.offset.toNat], rfl, by rw [hm, ho]; rfl⟩,
    ⟨[], (List.append_nil _).symm, (List.append_nil _).symm⟩⟩

theorem squeezeByte_sameEffect (h : SameInstance s s') : SameEffect s s' (s.squeezeByte P) (s'.squeezeByte P) := by
  have hfull := permuteIfFull_sameEffect (P := P) h
  rw [squeezeByte_eq_deliverByte, squeezeByte_eq_deliverByte]
  exact hfull.trans (deliverByte_sameEffect hfull.inst)

theorem squeezeSerial_sameEffect (n : Nat) (h : SameInstance s s') :
    SameEffect s s' (squeezeSerial P n s) (squeezeSerial P n s') := by
  induction n generalizing s s' with
  | zero => exact .refl h
  | succ n ih =>
    have hbyte := squeezeByte_sameEffect (P := P) h
    exact hbyte.trans (ih hbyte.inst)

theorem pad_mem_congr (h : SameInstance s s') : s.pad.mem = s'.pad.mem := by
  simp only [State.pad, setMem_mem, State.delimiterAddr, State.lastPadAddr, h.mem, h.rate, h.delimiter, h.offset]

/-- The state in which the squeeze starts: padding and the first permutation (42_finalize.md R91, R93). -/
theorem closeBlock_sameEffect (outlen : Len) (h : SameInstance s s') :
    SameEffect s s' (((s.accept (.finalize outlen)).closeBlock P).setCnt outlen)
      (((s'.accept (.finalize outlen)).closeBlock P).setCnt outlen) := by
  have hpad : s.pad.mem.lanes = s'.pad.mem.lanes := congrArg Memory.lanes (pad_mem_congr h)
  refine ⟨⟨congrArg (fun L => Memory.ofLanes (P L)) hpad, h.rate, h.delimiter, rfl⟩,
    ⟨[], (List.append_nil _).symm, (List.append_nil _).symm⟩, ⟨[s.pad.mem.lanes], rfl, ?_⟩⟩
  rw [hpad]
  rfl

theorem finalized_sameEffect (outlen : Len) (h : SameInstance s s') :
    SameEffect s s' (finalized P outlen s) (finalized P outlen s') := by
  have hclose := closeBlock_sameEffect (P := P) outlen h
  obtain ⟨⟨hm, hr, hd, ho⟩, hdout, hperm⟩ := hclose.trans (squeezeSerial_sameEffect outlen.toNat hclose.inst)
  exact ⟨⟨hm, hr, hd, ho⟩, hdout, hperm⟩

/-- Settles O45: padding, permutations and squeeze make the same of the same instance. -/
theorem finalizeReadsOnlyTheInstance : Obligations.FinalizeReadsOnlyTheInstance := by
  intro P s s' t outlen hm hr hd ho hp hp' hf hf' h
  obtain ⟨hhalt, -⟩ | ⟨-, hidle, -⟩ | ⟨-, hcons, -⟩ | ⟨-, -, hc, rfl⟩ := finalizeWith_next.1 h
  · rw [hf] at hhalt; cases hhalt
  · rw [hp] at hidle; cases hidle
  · rw [hp] at hcons; cases hcons
  · have hc' : s'.cursorInBlock := by rwa [State.cursorInBlock, ← hr, ← ho]
    obtain ⟨hinst, ⟨out, hout, hout'⟩, ⟨calls, hcalls, hcalls'⟩⟩ :=
      finalized_sameEffect (P := P) outlen ⟨hm, hr, hd, ho⟩
    exact ⟨_, out, calls, finalizeWith_run hf' hp' hc', hout, hout', hcalls, hcalls', hinst.mem⟩

end Sys2Proof.Proofs

/-! The obligation of 70_reset_and_hazards.md R143 on what the host does at the ports: it sends words and bytes, takes
bytes and asserts reset (20_memory.md R41 to R43), and none of it reaches a field the invariants (10_state.md R23) speak
of, but for `dout` and the record of what was taken from it, both empty before the first command. -/

namespace Sys2Proof.Proofs

open Sys2Proof.Machine Sys2Proof.Laws

variable {s : State}

theorem sendCmd_inv (h : s.Inv) (w : Word) : (s.sendCmd w).Inv := h

theorem sendDin_inv (h : s.Inv) (bs : List Byte) : (s.sendDin bs).Inv := h

theorem assertRst_inv (h : s.Inv) : s.assertRst.Inv := h

/-- With nothing on `dout` there is nothing to take. -/
theorem takeDout_of_dout_nil (h : s.dout = []) (n : Nat) : s.takeDout n = ([], s) := by
  simp only [State.takeDout, h, List.take_nil, List.drop_nil, List.append_nil]
  rw [← h]

/-- In IDLE, the one phase in which the invariants speak of `dout`, the take leaves the state as it is. -/
theorem takeDout_inv (h : s.Inv) (n : Nat) : (s.takeDout n).2.Inv := by
  obtain ⟨hm, hsq, hidle, habs, hcon, hcnt, hcause⟩ := h
  refine ⟨hm, hsq, fun hp => ?_, habs, hcon, hcnt, hcause⟩
  obtain ⟨-, -, -, -, hdout, -⟩ := hidle hp
  rw [takeDout_of_dout_nil hdout]
  exact hidle hp

/-- A line is sent command by command, each word with its payload (30_encoding.md R61). -/
theorem sendLine_inv (h : s.Inv) (l : AsmLine) : (s.sendLine l).Inv :=
  List.foldlRecOn (motive := State.Inv) l.assemble _ h fun _ ht c _ => sendDin_inv (sendCmd_inv ht c.word) c.payload

/-- Settles O15, action by action. -/
theorem hostActionsKeepInvariants : Obligations.HostActionsKeepInvariants :=
  fun _ h => ⟨sendCmd_inv h, sendDin_inv h, takeDout_inv h, assertRst_inv h, sendLine_inv h⟩

end Sys2Proof.Proofs
